-- ==== Sys2Proof/Word.lean ====
section
/-! DEFINITION. The word of the Intcode minimal computer (00_scope.md R7, 10_state.md R11). -/

namespace Sys2Proof

/-- One memory word: a signed integer (R7).
A word is not a bit vector: no instruction, address or operand is cut into bit fields, and the exact result of
ADD and MUL is never wrapped (R7, R88).
A finite `XLEN` only restricts the range of words, `Machine.representable`. -/
abbrev Word := Int

end Sys2Proof
end

