-- ==== Sys2Proof/Config.lean ====
section
/-! DEFINITION. The implementation parameters of 00_scope.md R4 that a step or a reset reads. They are fixed before
reset and no instruction reads or writes them. -/

namespace Sys2Proof

/-- `XLEN` (R4, D1): unbounded mathematical integers, or a two's-complement width in bits. -/
inductive XLen
  | inf
  | bits (n : Nat)
deriving DecidableEq, Repr

/-- `UNKNOWN_OPCODE_POLICY` (R4, R57, D2): what a fetched word other than 1, 2, 99 does. -/
inductive UnknownOpcodePolicy
  /-- Enter FAULTED with `UnknownOpcode` (R103): the default. -/
  | fault
  /-- Enter HALTED, the reference behaviour (R96). -/
  | halt
deriving DecidableEq, Repr

/-- The parameters of one machine (R4). `memMax` is the capacity `MEM_MAX` of a finite implementation (D21, U14);
`none` leaves Memory unbounded. `MEM_LEN` is no field: it is the length of Memory. -/
structure Config where
  xlen : XLen
  unknownOpcodePolicy : UnknownOpcodePolicy
  memMax : Option Nat
deriving DecidableEq, Repr

namespace Config

/-- The defaults of R4 and of 95_test_vectors.md: `XLEN = inf`, policy `fault`; no capacity limit (D21).
DESIGN CHOICE, log entries 1, 2 and 15: the spec leaves the three open as model arguments. -/
def default : Config := { xlen := .inf, unknownOpcodePolicy := .fault, memMax := none }

/-- The smallest admitted finite `XLEN` (R4: "any finite value must be at least 8"). -/
def minFiniteXLen : Nat := 8

/-- `ENTRY`: the value of `ip` after reset (R4, R25). -/
def entry : Nat := 0

/-- `NOUN_ADDR` (R4, R132). -/
def nounAddr : Nat := 1

/-- `VERB_ADDR` (R4, R132). -/
def verbAddr : Nat := 2

/-- `OUT_ADDR` (R4, R143). -/
def outAddr : Nat := 0

/-- `PARAM_RANGE`: the exclusive upper bound of NOUN and VERB (R4, R133). -/
def paramRange : Nat := 100

/-- NOUN of the canonical configuration (R133, R158). -/
def canonicalNoun : Nat := 12

/-- VERB of the canonical configuration (R133, R158). -/
def canonicalVerb : Nat := 2

end Config

end Sys2Proof
end

