-- ==== Sys2Proof/Machine/Flags.lean ====
section
/-! DEFINITION. The machine has no flags (10_state.md R21). What other hardware signals by an overflow flag is here the
range test of a finite `XLEN` (00_scope.md R7, R8; 41_arithmetic.md R88). -/

namespace Sys2Proof.Machine

/-- `2^(XLEN-1)` for a finite width: the first integer above the range of a word (R7). -/
def wordLimit (n : Nat) : Nat := 2 ^ (n - 1)

/-- `Representable(v)` (R8): always with `XLEN = inf`; else `-2^(XLEN-1) <= v <= 2^(XLEN-1) - 1`. -/
def representable : XLen → Int → Bool
  | .inf, _ => true
  | .bits n, v => decide (-(wordLimit n : Int) ≤ v) && decide (v ≤ (wordLimit n : Int) - 1)

/-- Whether a value of `XLEN` is admitted: `inf`, or a finite width of at least 8 (R4). -/
def xlenAdmitted : XLen → Bool
  | .inf => true
  | .bits n => decide (Config.minFiniteXLen ≤ n)

end Sys2Proof.Machine
end

