-- ==== Sys2Proof/Syntax.lean ====
section
/-! DEFINITION. The instructions (30_encoding.md R50 to R58) and the descriptor of the Operation Registry. -/

namespace Sys2Proof

/-- The instruction set IC-AMH (R1, R53): one constructor per row of spec/opcode_table.json.
The operands of ADD and MUL are the three parameter words, each an address used as it stands (R51, R55). -/
inductive Instr
  /-- ADD, opcode 1, format Q (R51, R85). -/
  | add (a1 a2 a3 : Word)
  /-- MUL, opcode 2, format Q (R51, R86). -/
  | mul (a1 a2 a3 : Word)
  /-- HLT, opcode 99, format Z (R52, R95). -/
  | hlt
deriving DecidableEq, Repr

/-- Which operation an opcode word names (R53). -/
inductive OpKind
  | add
  | mul
  | hlt
deriving DecidableEq, Repr

/-- One immutable descriptor of the Operation Registry (R53): the opcode word, the total number of words consumed
with the opcode word counted (R50), and what is executed. -/
structure Operation where
  opcode : Word
  size : Nat
  kind : OpKind
deriving DecidableEq, Repr

/-- The operation of an instruction. -/
def Instr.kind : Instr → OpKind
  | .add _ _ _ => .add
  | .mul _ _ _ => .mul
  | .hlt => .hlt

/-- The parameter words of an instruction, in order (R51, R52). -/
def Instr.params : Instr → List Word
  | .add a1 a2 a3 => [a1, a2, a3]
  | .mul a1 a2 a3 => [a1, a2, a3]
  | .hlt => []

end Sys2Proof
end

