-- ==== Sys2Proof/WellFormed.lean ====
section
/-! DEFINITION. Well-formed instructions. The only constraint the spec puts on a parameter word is that it is a word
(30_encoding.md R56: any word value may stand in `a1`, `a2`, `a3`; 00_scope.md R7: the range of a word). -/

namespace Sys2Proof

/-- Every parameter word is a word of the given `XLEN` (R7, R56). DEDUCED, log entry 13. -/
def Instr.wellFormed (x : XLen) (i : Instr) : Bool :=
  i.params.all (Machine.representable x)

end Sys2Proof
end

