-- ==== Sys2Proof/Decode.lean ====
section
/-! DEFINITION. The Operation Registry, the decoder and the encoder (30_encoding.md R50 to R59), and the numbering of an
instruction's bits that spec/opcode_table.json presupposes. -/

namespace Sys2Proof

/-- The number of words an operation consumes, the opcode word included: the `size` of its descriptor (R50, R53). -/
def operationSize : OpKind → Nat
  | .add => 4
  | .mul => 4
  | .hlt => 1

/-- The Operation Registry: a constant of the hardware with exactly three entries (R53). -/
def registry : List Operation :=
  [ { opcode := 1, size := operationSize .add, kind := .add },
    { opcode := 2, size := operationSize .mul, kind := .mul },
    { opcode := 99, size := operationSize .hlt, kind := .hlt } ]

/-- `lookup(opcode)`: equality of the whole word with a row's opcode (R53, R54, R74). -/
def lookup (w : Word) : Option Operation := registry.find? (fun op => op.opcode == w)

/-- Why a sequence of words is not an instruction. -/
inductive Reject
  /-- There is no opcode word at all (R73). -/
  | noOpcodeWord
  /-- The opcode word is not in the Registry (R57). -/
  | unknownOpcode (w : Word)
  /-- The opcode is known and parameter word `k` (1, 2 or 3) is missing (R59). -/
  | missingParameter (k : Nat)
deriving DecidableEq, Repr

/-- What decoding a sequence of words gives: an instruction and the words after it, or a rejection by name. -/
inductive Decoded
  | instr (i : Instr) (rest : List Word)
  | rejected (r : Reject)
deriving DecidableEq, Repr

/-- The three parameter words of format Q, in order; the first missing one is named (R51, R59, R87). -/
def decodeParams (mk : Word → Word → Word → Instr) : List Word → Decoded
  | [] => .rejected (.missingParameter 1)
  | [_] => .rejected (.missingParameter 2)
  | [_, _] => .rejected (.missingParameter 3)
  | a1 :: a2 :: a3 :: rest => .instr (mk a1 a2 a3) rest

/-- The parameter words an operation takes: three for ADD and MUL, none for HLT (R51, R52). -/
def decodeOperation (op : Operation) (rest : List Word) : Decoded :=
  match op.kind with
  | .add => decodeParams Instr.add rest
  | .mul => decodeParams Instr.mul rest
  | .hlt => .instr .hlt rest

/-- Decoding the words from an opcode word on. The opcode word is looked at before any parameter word (R59); a word
not in the Registry has no length and no parameter words (R58). Total on every sequence of words. -/
def decode : List Word → Decoded
  | [] => .rejected .noOpcodeWord
  | w :: rest =>
    match lookup w with
    | some op => decodeOperation op rest
    | none => .rejected (.unknownOpcode w)

/-- The words of an instruction, from the tables of R51 and R52. -/
def encode : Instr → List Word
  | .add a1 a2 a3 => [1, a1, a2, a3]
  | .mul a1 a2 a3 => [2, a1, a2, a3]
  | .hlt => [99]

/-- The width at which a word is laid out as bits for the numbering of spec/opcode_table.json: the finite instance's 64
(R4). The machine itself has no bit layout (R7, R33). DESIGN CHOICE, log entry 5. -/
def tableWordBits : Nat := 64

/-- The `k`-th word of an instruction given as one number: bits `64k` to `64k+63`, read as two's complement (R7). -/
def tableWord (w k : Nat) : Word := (BitVec.ofNat tableWordBits (w >>> (tableWordBits * k))).toInt

/-- The four words of the longest instruction held by a number of `nbits` bits; the bits above `nbits` are 0. -/
def tableWords (nbits w : Nat) : List Word :=
  (List.range 4).map (tableWord (w % 2 ^ nbits))

/-- The instruction the decoder reads from an instruction given as one number. -/
def decodeTableWord (nbits w : Nat) : Option Instr :=
  match decode (tableWords nbits w) with
  | .instr i _ => some i
  | .rejected _ => none

/-- The number whose `k`-th group of 64 bits is the two's complement of the `k`-th word. -/
def numberOfWords : List Word → Nat
  | [] => 0
  | v :: rest => (BitVec.ofInt tableWordBits v).toNat + 2 ^ tableWordBits * numberOfWords rest

/-- An instruction as one number, and how many bits it has: the inverse of `decodeTableWord`. -/
def encodeTableWord (i : Instr) : Nat × Nat :=
  (tableWordBits * (encode i).length, numberOfWords (encode i))

end Sys2Proof
end

