-- ==== Sys2Proof/Machine/State.lean ====
section
/-! DEFINITION. The architectural state (10_state.md), its value after reset, and the reasons a step can stop. -/

namespace Sys2Proof.Machine

/-- Memory: a sequence of `MEM_LEN` words addressed by zero-based position (R11, R30). A cell is one integer and no bytes
are exposed (R33); every address in `[0, MEM_LEN)` holds a word and no other address exists (R11, R31), so the list of
the words themselves is the one canonical form. Log entry 6. -/
abbrev Memory := List Word

/-- The run state (R17). -/
inductive RunState
  | running
  | halted
  | faulted
deriving DecidableEq, Repr

/-- Why the machine is FAULTED, with the information recorded (R18, R100). -/
inductive FaultCause
  /-- An address outside `[0, MEM_LEN)`, as a signed integer (R101). -/
  | outOfBoundsAccess (addr : Int)
  /-- The opcode fetch at `ip >= MEM_LEN` (R102). -/
  | truncated (ip : Nat)
  /-- A fetched word other than 1, 2, 99 under the policy `fault` (R103). -/
  | unknownOpcode (word : Word)
  /-- An exact result outside a finite `XLEN` (R104). -/
  | arithmeticOverflow
deriving DecidableEq, Repr

/-- One machine instance. `mem`, `ip`, `run`, `fault` are the whole architectural state (R10).
`cfg` is the model's own field, not state of the spec: the parameters the instance was launched with (R4), which no
step writes. Log entry 1. -/
structure State where
  /-- The parameters of the instance (R4). -/
  cfg : Config
  /-- Memory (R11). -/
  mem : Memory
  /-- The Instruction Pointer (R13, R16). -/
  ip : Nat
  /-- The run state (R17). -/
  run : RunState
  /-- The fault record; `none` is the spec's `None` (R18). -/
  fault : Option FaultCause
deriving DecidableEq, Repr

/-- Why a step answers no state. The faults of R100 are NOT here: taking one is a next state (R110). -/
inductive Fault
  /-- Raised by `step` in HALTED: no step exists there (R71, U10: stuck). Safe. -/
  | haltedHasNoStep
  /-- Raised by `step` in FAULTED: no step exists there (R71, U10: stuck). Safe. -/
  | faultedHasNoStep
deriving DecidableEq, Repr

/-- What the model gives no meaning to. -/
inductive Refusal
  /-- An instruction without a meaning: raised by no arm of `exec`. Safe. -/
  | notModelled (mnemonic : String)
  /-- Raised by `resetFrom`: a finite `XLEN` below 8 (R4). Safe. -/
  | xlenNotAdmitted
  /-- Raised by `resetFrom`: an image longer than the capacity `MEM_MAX` (D21, U14). Safe. -/
  | imageTooLong
  /-- Raised by `resetFrom`: an image word that is no word of `XLEN` bits (R135). Safe. -/
  | imageNotRepresentable
  /-- Raised by `resetFrom`: a configured reset whose NOUN or VERB is outside 0 to 99 (R133, D9). Safe. -/
  | parametersOutOfRange
deriving DecidableEq, Repr

/-- The machine right after a reset of the empty image with no configuration (R25, R134): no program is loaded.
The default parameters and the empty image are DESIGN CHOICE, log entries 1, 2, 4 and 15. -/
def State.reset : State :=
  { cfg := Config.default, mem := [], ip := Config.entry, run := .running, fault := none }

end Sys2Proof.Machine
end

