-- ==== Sys2Proof/Machine/Ops.lean ====
section
/-! DEFINITION. The named operations over Memory and the control components: the checked accesses of 00_scope.md R8,
entering FAULTED (60_exceptions.md R110), halting (42_halt.md R95) and the advance of `ip` (40_execution_loop.md R76). -/

namespace Sys2Proof.Machine

/-- A valid address: `0 <= a < MEM_LEN` (R31). -/
def inBounds (m : Memory) (a : Int) : Bool := decide (0 ≤ a) && decide (a < (m.length : Int))

/-- The bounds check of every access: `OutOfBoundsAccess(a)` outside `[0, MEM_LEN)` (R8, R36, R37, R101). -/
def checkAddress (m : Memory) (a : Int) : Except FaultCause Unit :=
  if inBounds m a then .ok () else .error (.outOfBoundsAccess a)

/-- `MemRead(a, 1)` (R8, R36). -/
def memRead (m : Memory) (a : Int) : Except FaultCause Word :=
  if a < 0 then .error (.outOfBoundsAccess a)
  else match m[a.toNat]? with
    | some w => .ok w
    | none => .error (.outOfBoundsAccess a)

/-- `MemWrite(a, 1, v)`: replaces the whole word of that one cell (R8, R37). Memory keeps its length (R12). -/
def memWrite (m : Memory) (a : Int) (v : Word) : Except FaultCause Memory :=
  if inBounds m a then .ok (m.set a.toNat v) else .error (.outOfBoundsAccess a)

/-- Every cell holds a word of the machine's `XLEN` (R7, R11). The list form itself is canonical (log entry 6). -/
def Memory.wf (x : XLen) (m : Memory) : Bool := m.all (representable x)

/-- Whether Memory fits the capacity `MEM_MAX` (D21). -/
def fitsCapacity (c : Config) (len : Nat) : Bool :=
  match c.memMax with
  | none => true
  | some n => decide (len ≤ n)

/-- Taking a fault (R110): `run = FAULTED`, the fault recorded, Memory and `ip` as they are. There is no saved pc,
no vector and no handler (R110), and no return (R113). -/
def raise (c : FaultCause) (s : State) : State := { s with run := .faulted, fault := some c }

/-- The transition to HALTED: `run` only (R75, R95). -/
def halt (s : State) : State := { s with run := .halted }

/-- The advance of `ip` by the size of the executed operation (R13, R76). -/
def advance (n : Nat) (s : State) : State := { s with ip := s.ip + n }

/-- Memory replaced by the result of an operation (R23: in place or by copy is not observable). -/
def withMem (m : Memory) (s : State) : State := { s with mem := m }

/-- A fetched word that is not 1, 2 or 99 (R57): the fault of R103 or the halt of R96, as the parameter says. -/
def unknownOpcode (w : Word) (s : State) : State :=
  match s.cfg.unknownOpcodePolicy with
  | .fault => raise (.unknownOpcode w) s
  | .halt => halt s

end Sys2Proof.Machine
end

