-- ==== Sys2Proof/Machine/Operands.lean ====
section
/-! DEFINITION. The one operand form, position/direct addressing (41_arithmetic.md R91), and the checks of ADD and MUL in
the order of R87. -/

namespace Sys2Proof.Machine

/-- `EA_k = Mem[ip + k]`: the effective address of operand `k` of the instruction at `ip` (R91). -/
def effectiveAddress (s : State) (k : Nat) : Except FaultCause Word := memRead s.mem (s.ip + k : Nat)

/-- A source operand: the cell its parameter word names (R55, R91). -/
def sourceOperand (s : State) (a : Word) : Except FaultCause Word := memRead s.mem a

/-- The result of the arithmetic, exact or not at all: `ArithmeticOverflow` where a finite `XLEN` cannot hold it
(R88, R104). -/
def exactResult (s : State) (r : Int) : Except FaultCause Word :=
  if representable s.cfg.xlen r then .ok r else .error .arithmeticOverflow

/-- Memory after the operation, or the first failing check: first operand, second operand, destination address,
overflow, then the write (R85, R86, R87). -/
def arithmeticResult (f : Int → Int → Int) (a1 a2 a3 : Word) (s : State) : Except FaultCause Memory := do
  let v1 ← sourceOperand s a1
  let v2 ← sourceOperand s a2
  checkAddress s.mem a3
  let r ← exactResult s (f v1 v2)
  memWrite s.mem a3 r

end Sys2Proof.Machine
end

