-- ==== Sys2Proof/Machine/Arithmetic.lean ====
section
/-! DEFINITION. ADD and MUL (41_arithmetic.md R85 to R92). -/

namespace Sys2Proof.Machine

/-- Execute, then advance (R76): the write and the advance of `ip` are one step, and a failed check takes the fault with
Memory and `ip` unchanged (R110, R111). -/
def arithmetic (f : Int → Int → Int) (size : Nat) (a1 a2 a3 : Word) (s : State) : Host.Outcome State Fault Refusal :=
  match arithmeticResult f a1 a2 a3 s with
  | .ok m => .next (advance size (withMem m s))
  | .error c => .next (raise c s)

/-- ADD (R85): `Mem[a3] <- Mem[a1] + Mem[a2]`, the exact sum. -/
def execAdd (a1 a2 a3 : Word) (s : State) : Host.Outcome State Fault Refusal :=
  arithmetic (fun v1 v2 => v1 + v2) (operationSize .add) a1 a2 a3 s

/-- MUL (R86): `Mem[a3] <- Mem[a1] * Mem[a2]`, the exact product. -/
def execMul (a1 a2 a3 : Word) (s : State) : Host.Outcome State Fault Refusal :=
  arithmetic (fun v1 v2 => v1 * v2) (operationSize .mul) a1 a2 a3 s

end Sys2Proof.Machine
end

