-- ==== Sys2Proof/Machine/Halt.lean ====
section
/-! DEFINITION. HLT (42_halt.md R95), the only system instruction (R98). -/

namespace Sys2Proof.Machine

/-- HLT (R75, R95): `run <- HALTED`; Memory, `ip` and `fault` stay, the size of 1 is never added (C4, D19). -/
def execHlt (s : State) : Host.Outcome State Fault Refusal := .next (halt s)

end Sys2Proof.Machine
end

