-- ==== Sys2Proof/Machine/Fetch.lean ====
section
/-! DEFINITION. The fetch of the instruction at `ip` (40_execution_loop.md R73, R74; 41_arithmetic.md R87) and the placing
of an instruction where it is fetched. -/

namespace Sys2Proof.Machine

/-- What the fetch at `ip` gives: an instruction with its parameter words, a word not in the Registry, or a fault. -/
inductive Fetched
  | instruction (i : Instr)
  | unknown (w : Word)
  | raised (c : FaultCause)
deriving DecidableEq, Repr

/-- The fetch. The opcode word first: `Truncated(ip)` when there is none (R73, R102), then the lookup (R74), then the
parameter words in order, each an access that raises `OutOfBoundsAccess(ip + k)` past the end (R59, R87, R107).
Reading the parameter words is the start of the pseudocode of R85 and R86; the model does it here so that a decoded
instruction carries its operands. DEDUCED, log entry 8. -/
def fetch (s : State) : Fetched :=
  match decode (s.mem.drop s.ip) with
  | .instr i _ => .instruction i
  | .rejected .noOpcodeWord => .raised (.truncated s.ip)
  | .rejected (.unknownOpcode w) => .unknown w
  | .rejected (.missingParameter k) => .raised (.outOfBoundsAccess ((s.ip + k : Nat) : Int))

/-- Memory with `ws` at the addresses `start`, `start + 1`, ..., made long enough with words 0 where it is too short. This is
the loading of a program from outside the machine, not an effect of a step. Log entry 5. -/
def placeWords (ws : List Word) (start : Nat) (m : Memory) : Memory :=
  m.take start ++ List.replicate (start - m.length) 0 ++ ws ++ m.drop (start + ws.length)

end Sys2Proof.Machine
end

