-- ==== Sys2Proof/Machine/Loop.lean ====
section
/-! DEFINITION. The step of the fetch-dispatch-execute loop (40_execution_loop.md R70 to R79). -/

namespace Sys2Proof.Machine

/-- The body of a step in RUNNING (R72): fetch, dispatch, and halt, fault, or execute and advance. -/
def stepRunning (s : State) : Host.Outcome State Fault Refusal :=
  match fetch s with
  | .instruction i => exec i s
  | .unknown w => .next (unknownOpcode w s)
  | .raised c => .next (raise c s)

/-- A step is enabled exactly when `run = RUNNING` (R71); a terminal state has none. Log entry 3. -/
def stepOnce (s : State) : Host.Outcome State Fault Refusal :=
  match s.run with
  | .running => stepRunning s
  | .halted => .fault .haltedHasNoStep
  | .faulted => .fault .faultedHasNoStep

end Sys2Proof.Machine
end

