-- ==== Sys2Proof/Machine/Step.lean ====
section
/-! DEFINITION. One step of the machine, and the placing of one instruction to be run next. -/

namespace Sys2Proof.Machine

/-- `Step()` (R72). -/
def step (s : State) : Host.Outcome State Fault Refusal := stepOnce s

/-- `s` with the instruction of `nbits` bits whose bits are `w` stored at `ip`, where the next step fetches, and the
machine RUNNING with no fault, as the fetch needs. Log entry 5. -/
def State.withFetchWord (s : State) (nbits w : Nat) : State :=
  { s with mem := placeWords (tableWords nbits w) s.ip s.mem, run := .running, fault := none }

end Sys2Proof.Machine
end

