-- ==== Sys2Proof/Machine/Loader.lean ====
section
/-! DEFINITION. The program text format, host level (30_encoding.md R62). The strict reading of D20 is taken. -/

namespace Sys2Proof.Machine

/-- Why a text is no program (R62, R105). -/
inductive ParseError
  /-- A token that is not an optional `-` and one or more decimal digits (D20). -/
  | malformedToken (token : List Char)
  /-- An integer that is no word of a finite `XLEN` (R62, D20). -/
  | notRepresentable (value : Int)
deriving DecidableEq, Repr

/-- Whitespace: blank, tab, line feed, carriage return. PRESUMED, log entry 9: the spec names no characters. -/
def isBlank (c : Char) : Bool := c == ' ' || c == '\t' || c == '\n' || c == '\r'

/-- Whitespace trimmed at the two ends only (R62, D20). -/
def trimBlanks (text : List Char) : List Char :=
  ((text.dropWhile isBlank).reverse.dropWhile isBlank).reverse

/-- The tokens between commas; an empty text has one empty token (D20). -/
def splitCommas : List Char → List (List Char)
  | [] => [[]]
  | c :: cs =>
    if c = ',' then [] :: splitCommas cs
    else match splitCommas cs with
      | [] => [[c]]
      | t :: ts => (c :: t) :: ts

/-- The value of a decimal digit. -/
def digitValue (c : Char) : Option Nat :=
  if 48 ≤ c.toNat ∧ c.toNat ≤ 57 then some (c.toNat - 48) else none

/-- The value of a run of decimal digits, most significant first. -/
def digitsValue : Nat → List Char → Option Nat
  | acc, [] => some acc
  | acc, c :: cs =>
    match digitValue c with
    | some d => digitsValue (10 * acc + d) cs
    | none => none

/-- One or more decimal digits (D20). -/
def parseNatural : List Char → Option Nat
  | [] => none
  | c :: cs => digitsValue 0 (c :: cs)

/-- A token: an optional `-` and one or more decimal digits (R62, D20). -/
def parseInteger : List Char → Option Int
  | '-' :: cs => (parseNatural cs).map (fun n => -(n : Int))
  | cs => (parseNatural cs).map (fun n => (n : Int))

/-- One token to one word, or the error of the load. -/
def parseToken (x : XLen) (token : List Char) : Except ParseError Word :=
  match parseInteger token with
  | none => .error (.malformedToken token)
  | some v => if representable x v then .ok v else .error (.notRepresentable v)

/-- The words of the tokens in order; the first bad token is the error. -/
def parseTokens (x : XLen) : List (List Char) → Except ParseError (List Word)
  | [] => .ok []
  | t :: ts => do
    let w ← parseToken x t
    let ws ← parseTokens x ts
    pure (w :: ws)

/-- The program image of a text: the `k`-th integer of the line is the initial content of address `k` (R62). -/
def parseProgram (x : XLen) (text : List Char) : Except ParseError (List Word) :=
  parseTokens x (splitCommas (trimBlanks text))

/-- The decimal digit of a value below 10. -/
def digitChar (d : Nat) : Char := Char.ofNat (48 + d)

/-- Decimal digits, most significant first, on fuel; `n + 1` is always enough. -/
def decimalDigits : Nat → Nat → List Char
  | 0, n => [digitChar n]
  | k + 1, n => if n < 10 then [digitChar n] else decimalDigits k (n / 10) ++ [digitChar (n % 10)]

/-- A word written in the text format (R62). -/
def renderWord : Word → List Char
  | .ofNat n => decimalDigits n n
  | .negSucc n => '-' :: decimalDigits (n + 1) (n + 1)

/-- A program image written in the text format (R62): the inverse of the loader. -/
def renderProgram : List Word → List Char
  | [] => []
  | [w] => renderWord w
  | w :: ws => renderWord w ++ ',' :: renderProgram ws

end Sys2Proof.Machine
end

