-- ==== Sys2Proof/Machine/HostInterface.lean ====
section
/-! DEFINITION. What the host reads of a machine (70_reset_and_hazards.md R143 to R146), and a whole run
(40_execution_loop.md R77, R78). -/

namespace Sys2Proof.Machine

/-- `out_valid`: true exactly in HALTED (R143). -/
def outValid (s : State) : Bool := decide (s.run = .halted)

/-- `out`: the word at address 0, and only while `out_valid` (R112, R143). A view of Memory, not a register. -/
def out (s : State) : Option Word := if outValid s then s.mem[Config.outAddr]? else none

/-- The status the host reads: `run` and `fault` (R144). -/
def status (s : State) : RunState × Option FaultCause := (s.run, s.fault)

/-- Whether the run is over: HALTED or FAULTED (R27). -/
def terminal (s : State) : Bool := !decide (s.run = .running)

/-- Read-back of a cell, in a terminal state only (R145, R146). -/
def readBack (s : State) (a : Nat) : Option Word := if terminal s then s.mem[a]? else none

/-- Read-back of `ip`, in a terminal state only (R145). -/
def readBackIp (s : State) : Option Nat := if terminal s then some s.ip else none

/-- The numeric fault codes of R100 (D14). -/
def faultCode : Option FaultCause → Nat
  | none => 0
  | some (.outOfBoundsAccess _) => 1
  | some (.truncated _) => 2
  | some (.unknownOpcode _) => 3
  | some .arithmeticOverflow => 4

/-- The one integer of information a fault records, if any (R18, R100). -/
def faultInfo : Option FaultCause → Option Int
  | some (.outOfBoundsAccess a) => some a
  | some (.truncated p) => some (p : Int)
  | some (.unknownOpcode w) => some w
  | some .arithmeticOverflow => none
  | none => none

/-- At most `k` steps, stopping where no step exists (R77). -/
def runSteps : Nat → State → State
  | 0, s => s
  | k + 1, s =>
    match step s with
    | .next t => runSteps k t
    | .fault _ => s
    | .refused _ => s

/-- The step bound of R78: `floor(MEM_LEN / 4) + 1`. -/
def stepBound (s : State) : Nat := s.mem.length / 4 + 1

/-- `Run()` (R77), with the bound of R78 as fuel. -/
def runToEnd (s : State) : State := runSteps (stepBound s) s

end Sys2Proof.Machine
end

