-- ==== Sys2Proof/Machine/Reset.lean ====
section
/-! DEFINITION. Reset and memory initialisation (70_reset_and_hazards.md R130 to R135; 60_exceptions.md R114). -/

namespace Sys2Proof.Machine

/-- What the host supplies before reset (R130, R141, R142): the parameters of the machine, `IMAGE`, `CFG_ENABLE`, `NOUN` and
`VERB`. It is no state: reset samples it once (R24, R142). -/
structure Launch where
  cfg : Config
  image : List Word
  cfgEnable : Bool
  noun : Int
  verb : Int
deriving DecidableEq, Repr

/-- A value in `[0, 100)` (R133). -/
def inParamRange (v : Int) : Bool := decide (0 ≤ v) && decide (v < (Config.paramRange : Int))

/-- Why a reset is not an admitted use of the hardware, if it is not: an `XLEN` below 8 (R4), an image over capacity (D21),
an image word that is no word (R135), a parameter outside 0 to 99 in a configured reset (R133). The order in which the
four are looked at is a DESIGN CHOICE, log entry 7. -/
def launchRefusal (l : Launch) : Option Refusal :=
  if !xlenAdmitted l.cfg.xlen then some .xlenNotAdmitted
  else if !fitsCapacity l.cfg l.image.length then some .imageTooLong
  else if !Memory.wf l.cfg.xlen l.image then some .imageNotRepresentable
  else if l.cfgEnable && !(inParamRange l.noun && inParamRange l.verb) then some .parametersOutOfRange
  else none

/-- The copy of `IMAGE`, RUNNING at the entry with no fault (R25, R131). -/
def copyImage (l : Launch) : State :=
  { cfg := l.cfg, mem := l.image, ip := Config.entry, run := .running, fault := none }

/-- NOUN and VERB written at their fixed addresses (R132). Both bounds are tested before either write (R114, R134). -/
def configure (noun verb : Int) (s : State) : State :=
  if s.mem.length ≤ Config.nounAddr then raise (.outOfBoundsAccess (Config.nounAddr : Int)) s
  else if s.mem.length ≤ Config.verbAddr then raise (.outOfBoundsAccess (Config.verbAddr : Int)) s
  else withMem ((s.mem.set Config.nounAddr noun).set Config.verbAddr verb) s

/-- The reset procedure (R134). It depends on nothing but its inputs, not on any earlier run (R27, R130). -/
def resetFrom (l : Launch) : Host.Outcome State Fault Refusal :=
  match launchRefusal l with
  | some r => .refused r
  | none => .next (if l.cfgEnable then configure l.noun l.verb (copyImage l) else copyImage l)

end Sys2Proof.Machine
end

