-- ==== Sys2Proof/Machine/Search.lean ====
section
/-! DEFINITION. Parameter Search, a host procedure over reset, run and Output (70_reset_and_hazards.md R150 to R157). It is
outside the hardware block (R3) and transcribed here so that what the spec settles of it can be stated. -/

namespace Sys2Proof.Machine

/-- How one trial ends. -/
inductive TrialResult
  /-- HALTED, with the Output. -/
  | output (v : Word)
  /-- FAULTED (R156). -/
  | faulted (c : FaultCause)
  /-- The reset was not an admitted use (R133, R135). -/
  | refused (r : Refusal)
  /-- Neither HALTED with an Output nor FAULTED with a cause: no run ends so (R78, R97). -/
  | unfinished
deriving DecidableEq, Repr

/-- What the host reads of a finished run (R143, R144). -/
def resultOf (s : State) : TrialResult :=
  match out s, s.fault with
  | some v, _ => .output v
  | none, some c => .faulted c
  | none, none => .unfinished

/-- One trial (R152): reset from a fresh copy with `(noun, verb)`, run, read the Output. -/
def trial (cfg : Config) (program : List Word) (noun verb : Nat) : TrialResult :=
  match resetFrom { cfg := cfg, image := program, cfgEnable := true, noun := (noun : Int), verb := (verb : Int) } with
  | .next s => resultOf (runToEnd s)
  | .fault _ => .unfinished
  | .refused r => .refused r

/-- The outcome of `find` (R150, R154, R156). -/
inductive SearchResult
  | found (noun verb : Nat)
  | notFound
  | faulted (c : FaultCause)
  | refused (r : Refusal)
  | unfinished
deriving DecidableEq, Repr

/-- The 10,000 pairs in scan order: noun outer, verb inner (R151). -/
def scanOrder : List (Nat × Nat) :=
  (List.range Config.paramRange).flatMap (fun n => (List.range Config.paramRange).map (fun v => (n, v)))

/-- What one trial decides of the search: a match ends it, a fault ends it, another Output does not (R153, R156).
A refused reset ends it too: DESIGN CHOICE, log entry 10. -/
def decides (target : Word) (p : Nat × Nat) : TrialResult → Option SearchResult
  | .output v => if v = target then some (.found p.1 p.2) else none
  | .faulted c => some (.faulted c)
  | .refused r => some (.refused r)
  | .unfinished => some .unfinished

/-- The serial scan of a list of pairs (R151, R153, R154). -/
def scan (cfg : Config) (program : List Word) (target : Word) : List (Nat × Nat) → SearchResult
  | [] => .notFound
  | p :: ps =>
    match decides target p (trial cfg program p.1 p.2) with
    | some r => r
    | none => scan cfg program target ps

/-- `find(program, target)` (R150): the serial scan in row-major order, exhaustive and bounded (R155). -/
def find (cfg : Config) (program : List Word) (target : Word) : SearchResult :=
  scan cfg program target scanOrder

/-- Lexicographic order of pairs (R157). -/
def pairLt (p q : Nat × Nat) : Bool := decide (p.1 < q.1) || (decide (p.1 = q.1) && decide (p.2 < q.2))

/-- The earlier, in lexicographic order, of a best pair so far and a new one. -/
def earlier (best : Option ((Nat × Nat) × SearchResult)) (p : Nat × Nat) (r : SearchResult) :
    Option ((Nat × Nat) × SearchResult) :=
  match best with
  | none => some (p, r)
  | some b => if pairLt p b.1 then some (p, r) else some b

/-- Trials dispatched in any order, every deciding pair collected and the lexicographically least kept (R157). -/
def collect (cfg : Config) (program : List Word) (target : Word) :
    List (Nat × Nat) → Option ((Nat × Nat) × SearchResult) → Option ((Nat × Nat) × SearchResult)
  | [], best => best
  | p :: ps, best =>
    match decides target p (trial cfg program p.1 p.2) with
    | some r => collect cfg program target ps (earlier best p r)
    | none => collect cfg program target ps best

/-- `find` under a parallel schedule that preserves the result (R157). Log entry 17. -/
def findScheduled (cfg : Config) (program : List Word) (target : Word) (schedule : List (Nat × Nat)) : SearchResult :=
  match collect cfg program target schedule none with
  | some b => b.2
  | none => .notFound

/-- The derived value reported with a pair (R158). -/
def derivedValue (noun verb : Nat) : Nat := 100 * noun + verb

end Sys2Proof.Machine
end

