-- ==== Sys2Proof/Machine/Invocation.lean ====
section
/-! DEFINITION. The invocation surface and the exit behaviour of the surrounding program, host level
(70_reset_and_hazards.md R158, R159). -/

namespace Sys2Proof.Machine

/-- Why the surrounding program aborts (R105, R159). -/
inductive HostFailure
  | parse (e : ParseError)
  | fault (c : FaultCause)
  | notFound
  | refused (r : Refusal)
  | unfinished
deriving DecidableEq, Repr

/-- How the surrounding program ends (R159): status 0 with both results, or a non-zero status with a diagnostic and no
output. The status number and the text are not given (U9), so only the reason is kept. Log entry 11. -/
inductive ExitResult
  | success (output : Word) (noun verb derived : Nat)
  | failure (reason : HostFailure)
deriving DecidableEq, Repr

/-- Whether the exit status is 0 (R159). -/
def exitStatusZero : ExitResult → Bool
  | .success _ _ _ _ => true
  | .failure _ => false

/-- The pair of the search as the last result, or the failure of the search (R158, R154, R156). -/
def reportSearch (output : Word) : SearchResult → ExitResult
  | .found n v => .success output n v (derivedValue n v)
  | .notFound => .failure .notFound
  | .faulted c => .failure (.fault c)
  | .refused r => .failure (.refused r)
  | .unfinished => .failure .unfinished

/-- The two results in order (R158): the Output of the canonical configuration, then the search. A failure of either
leaves no output (R159). -/
def invokeImage (cfg : Config) (program : List Word) (target : Word) : ExitResult :=
  match trial cfg program Config.canonicalNoun Config.canonicalVerb with
  | .output v => reportSearch v (find cfg program target)
  | .faulted c => .failure (.fault c)
  | .refused r => .failure (.refused r)
  | .unfinished => .failure .unfinished

/-- The invocation on a program text and a target (R158); `TARGET` and the text are arguments (N8, N9). -/
def invoke (cfg : Config) (text : List Char) (target : Word) : ExitResult :=
  match parseProgram cfg.xlen text with
  | .ok program => invokeImage cfg program target
  | .error e => .failure (.parse e)

end Sys2Proof.Machine
end

