-- ==== Sys2Proof/Machine/Reference.lean ====
section
/-! DEFINITION. The direct evaluator of 40_execution_loop.md R81: the pseudocode of R72, R85, R86 and R95 line by line, over
its own accesses and its own range test. It uses no decoder, no fetch and no operation of the machine, so that
the agreement of `step` with it says something. -/

namespace Sys2Proof.Machine

/-- `MemRead(addr, 1)` as R8 writes it; the default is never read, since the address is in bounds. -/
def refRead (m : Memory) (addr : Int) : Except FaultCause Word :=
  if addr < 0 ∨ addr ≥ (m.length : Int) then .error (.outOfBoundsAccess addr)
  else .ok (m.getD addr.toNat 0)

/-- `MemWrite(addr, 1, v)` as R8 writes it. -/
def refWrite (m : Memory) (addr : Int) (v : Word) : Except FaultCause Memory :=
  if addr < 0 ∨ addr ≥ (m.length : Int) then .error (.outOfBoundsAccess addr)
  else .ok (m.take addr.toNat ++ v :: m.drop (addr.toNat + 1))

/-- Whether a value does not fit: the negation of `Representable(v)` as R8 writes it. -/
def refOverflows : XLen → Int → Bool
  | .inf, _ => false
  | .bits n, v => decide (v < -((2 ^ (n - 1) : Nat) : Int)) || decide (((2 ^ (n - 1) : Nat) : Int) - 1 < v)

/-- `ExecAdd()` and `ExecMul()` (R85, R86), which differ in the operation only. -/
def refExec (f : Int → Int → Int) (s : State) : Except FaultCause Memory := do
  let a1 ← refRead s.mem ((s.ip : Int) + 1)
  let a2 ← refRead s.mem ((s.ip : Int) + 2)
  let a3 ← refRead s.mem ((s.ip : Int) + 3)
  let v1 ← refRead s.mem a1
  let v2 ← refRead s.mem a2
  if a3 < 0 ∨ a3 ≥ (s.mem.length : Int) then throw (.outOfBoundsAccess a3)
  let r := f v1 v2
  if refOverflows s.cfg.xlen r then throw .arithmeticOverflow
  refWrite s.mem a3 r

/-- The advance of R72 after an execution, or the outcome of a raise (R110). -/
def refFinish (s : State) : Except FaultCause Memory → State
  | .ok m => { s with mem := m, ip := s.ip + 4 }
  | .error c => { s with run := .faulted, fault := some c }

/-- `Step()` as R72 writes it; `none` where no step is enabled (R71). -/
def refStep (s : State) : Option State :=
  if s.run ≠ .running then none
  else if s.ip ≥ s.mem.length then some { s with run := .faulted, fault := some (.truncated s.ip) }
  else
    let opcode := s.mem.getD s.ip 0
    if opcode = 99 then some { s with run := .halted }
    else if opcode = 1 then some (refFinish s (refExec (fun x y => x + y) s))
    else if opcode = 2 then some (refFinish s (refExec (fun x y => x * y) s))
    else if s.cfg.unknownOpcodePolicy = .halt then some { s with run := .halted }
    else some { s with run := .faulted, fault := some (.unknownOpcode opcode) }

/-- At most `k` steps of the direct evaluator, stopping where none is enabled (R77). -/
def refSteps : Nat → State → State
  | 0, s => s
  | k + 1, s =>
    match refStep s with
    | some t => refSteps k t
    | none => s

end Sys2Proof.Machine
end

