-- ==== Sys2Proof/Safety.lean ====
section
/-! DEFINITION. What the claims call a safe state and a safe run. -/

namespace Sys2Proof.Machine

/-- What a recorded fault says of the state that records it (R100 to R104, R110): the fault is precise, so its reason can
still be read off Memory, `ip` and the parameters. -/
def FaultCause.TrueOf (s : State) : FaultCause → Prop
  | .outOfBoundsAccess a => a < 0 ∨ (s.mem.length : Int) ≤ a
  | .truncated p => p = s.ip ∧ s.ip = s.mem.length
  | .unknownOpcode w =>
    s.mem[s.ip]? = some w ∧ w ≠ 1 ∧ w ≠ 2 ∧ w ≠ 99 ∧ s.cfg.unknownOpcodePolicy = .fault
  | .arithmeticOverflow => s.cfg.xlen ≠ .inf

/-- The invariant of the machine: what holds after every reset and is kept by every step. -/
structure State.Inv (s : State) : Prop where
  /-- `XLEN` is admitted (R4). -/
  xlenAdmitted : xlenAdmitted s.cfg.xlen = true
  /-- Memory fits the capacity (D21). -/
  capacity : fitsCapacity s.cfg s.mem.length = true
  /-- Every cell holds a word (R7, R11). -/
  memWf : Memory.wf s.cfg.xlen s.mem = true
  /-- `0 <= ip <= MEM_LEN` (R15). -/
  ipInMemory : s.ip ≤ s.mem.length
  /-- `ip` is a multiple of 4 (R15). -/
  ipMultipleOfFour : s.ip % 4 = 0
  /-- `fault` is `None` exactly outside FAULTED (R18). -/
  faultRecorded : s.fault = none ↔ s.run ≠ .faulted
  /-- A HALTED machine stands on the word that halted it (R14, R95, R96). -/
  haltedOnHalt : s.run = .halted → ∃ w, s.mem[s.ip]? = some w ∧
    (w = 99 ∨ (w ≠ 1 ∧ w ≠ 2 ∧ s.cfg.unknownOpcodePolicy = .halt))
  /-- A recorded fault is true of the state (R110, R111). -/
  faultTrue : ∀ c, s.fault = some c → c.TrueOf s

/-- `t` is reached from `s` by steps (R77). -/
inductive Reaches : State → State → Prop
  | refl (s : State) : Reaches s s
  | tail (s t u : State) : Reaches s t → step t = .next u → Reaches s u

/-- A run that ends well: it reaches HALTED with the Output `v` (R17, R97, R143). FAULTED is never a good end (D3). -/
def HaltsWith (s : State) (v : Word) : Prop := ∃ t, Reaches s t ∧ out t = some v

/-- Conditions (a) to (d) of R136 at the state a step starts from: what the hardware does not check ahead of the run. -/
def StepOk (s : State) : Prop :=
  s.mem[s.ip]? = some 99 ∨
  ∃ (w a1 a2 a3 v1 v2 : Int),
    s.mem[s.ip]? = some w ∧ (w = 1 ∨ w = 2) ∧
    s.mem[s.ip + 1]? = some a1 ∧ s.mem[s.ip + 2]? = some a2 ∧ s.mem[s.ip + 3]? = some a3 ∧
    0 ≤ a1 ∧ s.mem[a1.toNat]? = some v1 ∧ 0 ≤ a2 ∧ s.mem[a2.toNat]? = some v2 ∧
    0 ≤ a3 ∧ a3 < (s.mem.length : Int) ∧
    representable s.cfg.xlen (if w = 1 then v1 + v2 else v1 * v2) = true

end Sys2Proof.Machine
end

