-- ==== Sys2Proof/Certificates/Slice0/Obligations.lean ====
section
/-! DEFINITION. The statements about the model, from the numbered rules of spec/. -/

open Sys2Proof Sys2Proof.Machine

/-- A read answers a word exactly on the valid addresses `0 <= a < MEM_LEN`, and elsewhere, a negative address included,
raises `OutOfBoundsAccess` with that address (R31, R36). -/
def Obligations.ReadsSucceedExactlyOnValidAddresses : Prop :=
  ∀ (m : Memory) (a : Int),
    (0 ≤ a ∧ a < (m.length : Int) → ∃ w, m[a.toNat]? = some w ∧ memRead m a = .ok w) ∧
    (a < 0 ∨ (m.length : Int) ≤ a → memRead m a = .error (.outOfBoundsAccess a))

/-- R37: a write to a valid address replaces the whole word of that one cell by the exact value and changes no other
cell and not the length; a write to an invalid address raises `OutOfBoundsAccess` and there is no new Memory. -/
def Obligations.WriteReplacesOneCell : Prop :=
  ∀ (m : Memory) (a : Int) (v : Int),
    (0 ≤ a ∧ a < (m.length : Int) → ∃ m', memWrite m a v = .ok m' ∧ memRead m' a = .ok v ∧
      m'.length = m.length ∧ ∀ b : Int, b ≠ a → memRead m' b = memRead m b) ∧
    (a < 0 ∨ (m.length : Int) ≤ a → memWrite m a v = .error (.outOfBoundsAccess a))

/-- R53: the Registry is a fixed mapping with exactly three entries, one per opcode value, each with its size. -/
def Obligations.RegistryIsFixedMapping : Prop :=
  registry.length = 3 ∧
  ∀ w : Int, lookup w =
    if w = 1 then some { opcode := 1, size := 4, kind := .add }
    else if w = 2 then some { opcode := 2, size := 4, kind := .mul }
    else if w = 99 then some { opcode := 99, size := 1, kind := .hlt }
    else none

/-- Words written out from the tables of R51 and R52 decode to the instruction they stand for (95_test_vectors.md S1,
P1, V51, V60). -/
def Obligations.SpecWordsDecode : Prop :=
  decode [1, 9, 10, 3, 2, 3, 11, 0, 99] = .instr (.add 9 10 3) [2, 3, 11, 0, 99] ∧
  decode [2, 3, 11, 0, 99, 30] = .instr (.mul 3 11 0) [99, 30] ∧
  decode [99] = .instr .hlt [] ∧
  decode [1, 7, -2, 9] = .instr (.add 7 (-2) 9) [] ∧
  decode [1001, 4, 4, 0, 99] = .rejected (.unknownOpcode 1001)

/-- Decoding and encoding agree on every sequence of words: what decodes to `i` is exactly the words of `i` and what
follows them (R50 to R53). No word of an encoding is dropped and none has a second spelling. -/
def Obligations.DecodeInvertsEncode : Prop :=
  ∀ (ws rest : List Word) (i : Instr), decode ws = .instr i rest ↔ ws = encode i ++ rest

/-- Every sequence of words that is no instruction is rejected by name: no opcode word (R73), an opcode word other than 1, 2
and 99 (R57), or the first missing parameter word of an ADD or MUL. The last is the model's own rejection, log entry 8
(DEDUCED): R59 says that such an ADD or MUL decodes and then faults in its execution; the model reads the parameter words
in the fetch, which turns the rejection into that very fault in the same step. -/
def Obligations.RejectionNamesItsReason : Prop :=
  ∀ (ws : List Word) (r : Reject), decode ws = .rejected r ↔
    (ws = [] ∧ r = .noOpcodeWord) ∨
    (∃ w rest, ws = w :: rest ∧ w ≠ 1 ∧ w ≠ 2 ∧ w ≠ 99 ∧ r = .unknownOpcode w) ∨
    (∃ w rest, ws = w :: rest ∧ (w = 1 ∨ w = 2) ∧ rest.length < 3 ∧ r = .missingParameter (rest.length + 1))

/-- Every instruction whose parameter words are 64-bit words is read back from its bits as the opcode table numbers them.
The 64-bit layout is the model's choice, log entry 5. -/
def Obligations.TableWordsReadBackEveryInstruction : Prop :=
  ∀ i : Instr, i.wellFormed (.bits 64) = true →
    decodeTableWord (encodeTableWord i).1 (encodeTableWord i).2 = some i

/-- In RUNNING, when the words at `ip` decode to `i`, the step is the execution of `i` at that very state: `ip` is not
advanced before (R13, R72, R76). -/
def Obligations.StepRunsTheDecodedInstruction : Prop :=
  ∀ (s : State) (i : Instr) (rest : List Word),
    s.run = .running → decode (s.mem.drop s.ip) = .instr i rest → step s = exec i s

/-- A state whose next instruction was placed by `withFetchWord` runs that instruction, from every state. The placing is
the model's, log entry 5. -/
def Obligations.PlacedInstructionRunsNext : Prop :=
  ∀ (s : State) (nbits w : Nat) (i : Instr),
    decodeTableWord nbits w = some i → step (s.withFetchWord nbits w) = exec i (s.withFetchWord nbits w)

/-- ADD completes: both sources readable, the destination valid and the exact sum representable, for any aliasing of the
addresses (R85, R90). -/
def Obligations.AddCompletes : Prop :=
  ∀ (s : State) (a1 a2 a3 v1 v2 : Int),
    memRead s.mem a1 = .ok v1 → memRead s.mem a2 = .ok v2 → 0 ≤ a3 → a3 < (s.mem.length : Int) →
    representable s.cfg.xlen (v1 + v2) = true →
    exec (.add a1 a2 a3) s = .next { s with mem := s.mem.set a3.toNat (v1 + v2), ip := s.ip + 4 }

/-- MUL completes: both sources readable, the destination valid and the exact product representable (R86, R90). -/
def Obligations.MulCompletes : Prop :=
  ∀ (s : State) (a1 a2 a3 v1 v2 : Int),
    memRead s.mem a1 = .ok v1 → memRead s.mem a2 = .ok v2 → 0 ≤ a3 → a3 < (s.mem.length : Int) →
    representable s.cfg.xlen (v1 * v2) = true →
    exec (.mul a1 a2 a3) s = .next { s with mem := s.mem.set a3.toNat (v1 * v2), ip := s.ip + 4 }

/-- HLT completes from every state: `run` becomes HALTED and nothing else changes (R75, R95). -/
def Obligations.HltCompletes : Prop :=
  ∀ s : State, exec .hlt s = .next { s with run := .halted }

/-- The frame of HLT: every cell reads as before; `ip`, the fault record and the parameters stay (R95). -/
def Obligations.HltFrame : Prop :=
  ∀ (s t : State), exec .hlt s = .next t →
    (∀ a : Int, memRead t.mem a = memRead s.mem a) ∧ t.mem.length = s.mem.length ∧
    t.ip = s.ip ∧ t.fault = s.fault ∧ t.cfg = s.cfg ∧ t.run = .halted

/-- The pseudocode of R85 and R86 as one step at a state in RUNNING whose opcode word is that of the operation `f`: the
parameter words in order, the operands in order, the destination, the range, the write, and on any fault Memory and
`ip` as before. -/
def Sys2Proof.Machine.ArithmeticStepRule (f : Int → Int → Int) (s : State) : Prop :=
  (∀ k : Nat, 1 ≤ k → k ≤ 3 → s.mem.length = s.ip + k →
    step s = .next { s with run := .faulted, fault := some (.outOfBoundsAccess ((s.ip + k : Nat) : Int)) }) ∧
  (∀ a1 a2 a3 : Int,
    s.mem[s.ip + 1]? = some a1 → s.mem[s.ip + 2]? = some a2 → s.mem[s.ip + 3]? = some a3 →
    (memRead s.mem a1 = .error (.outOfBoundsAccess a1) →
      step s = .next { s with run := .faulted, fault := some (.outOfBoundsAccess a1) }) ∧
    (∀ v1, memRead s.mem a1 = .ok v1 → memRead s.mem a2 = .error (.outOfBoundsAccess a2) →
      step s = .next { s with run := .faulted, fault := some (.outOfBoundsAccess a2) }) ∧
    (∀ v1 v2, memRead s.mem a1 = .ok v1 → memRead s.mem a2 = .ok v2 →
      (a3 < 0 ∨ (s.mem.length : Int) ≤ a3 →
        step s = .next { s with run := .faulted, fault := some (.outOfBoundsAccess a3) }) ∧
      (0 ≤ a3 → a3 < (s.mem.length : Int) →
        (representable s.cfg.xlen (f v1 v2) = false →
          step s = .next { s with run := .faulted, fault := some .arithmeticOverflow }) ∧
        (representable s.cfg.xlen (f v1 v2) = true →
          step s = .next { s with mem := s.mem.set a3.toNat (f v1 v2), ip := s.ip + 4 }))))

/-- R85 as one step, with its worked example: in every state in RUNNING whose word at `ip` is 1. -/
def Obligations.AddStepFollowsItsPseudocode : Prop :=
  (∀ s : State, s.run = .running → s.mem[s.ip]? = some 1 → ArithmeticStepRule (fun v1 v2 => v1 + v2) s) ∧
  step { cfg := Config.default, mem := [1, 0, 0, 0, 99], ip := 0, run := .running, fault := none } =
    .next { cfg := Config.default, mem := [2, 0, 0, 0, 99], ip := 4, run := .running, fault := none }

/-- R86 as one step, with its worked example: in every state in RUNNING whose word at `ip` is 2. -/
def Obligations.MulStepFollowsItsPseudocode : Prop :=
  (∀ s : State, s.run = .running → s.mem[s.ip]? = some 2 → ArithmeticStepRule (fun v1 v2 => v1 * v2) s) ∧
  step { cfg := Config.default, mem := [2, 4, 4, 5, 99, 0], ip := 0, run := .running, fault := none } =
    .next { cfg := Config.default, mem := [2, 4, 4, 5, 99, 9801], ip := 4, run := .running, fault := none }

/-- R75: when the word at `ip` is 99 the step sets `run` to HALTED and nothing else, whatever the words after it, the end
of Memory included; only when the operation is not halt does the step execute it. -/
def Obligations.HaltTestPrecedesExecution : Prop :=
  ∀ s : State, s.run = .running →
    (s.mem[s.ip]? = some 99 → step s = .next { s with run := .halted }) ∧
    (∀ (i : Instr) (rest : List Word), decode (s.mem.drop s.ip) = .instr i rest → i ≠ .hlt → step s = exec i s)

/-- A fetched word other than 1, 2 and 99 changes neither Memory nor `ip`: it faults with that word under the policy
`fault` and halts under the policy `halt` (R57, R96, R103, decision D2). -/
def Obligations.UnknownOpcodeFollowsThePolicy : Prop :=
  ∀ (s : State) (w : Int), s.run = .running → s.mem[s.ip]? = some w → w ≠ 1 → w ≠ 2 → w ≠ 99 →
    (s.cfg.unknownOpcodePolicy = .fault →
      step s = .next { s with run := .faulted, fault := some (.unknownOpcode w) }) ∧
    (s.cfg.unknownOpcodePolicy = .halt → step s = .next { s with run := .halted })

/-- `Truncated` is raised by the fetch at `ip >= MEM_LEN`, with that `ip`, and by nothing else (R73, R102, decision D4). -/
def Obligations.TruncatedExactlyAtTheEndOfMemory : Prop :=
  ∀ s : State, s.run = .running →
    ∀ p : Nat, (∃ t, step s = .next t ∧ t.run = .faulted ∧ t.fault = some (.truncated p)) ↔
      (s.mem.length ≤ s.ip ∧ p = s.ip)

/-- A state has a next state exactly in RUNNING; HALTED and FAULTED stop by name (R71, decision D17). -/
def Obligations.StepExistsExactlyInRunning : Prop :=
  ∀ s : State,
    ((∃ t, step s = .next t) ↔ s.run = .running) ∧
    (s.run = .halted → step s = .fault .haltedHasNoStep) ∧
    (s.run = .faulted → step s = .fault .faultedHasNoStep)

/-- A step that ends FAULTED changed nothing but `run` and the fault record: Memory and `ip` are as before the step
(R110, R111, decisions D3 and D6). -/
def Obligations.FaultsArePrecise : Prop :=
  ∀ (s t : State), step s = .next t → t.run = .faulted →
    ∃ c, t = { s with run := .faulted, fault := some c }

/-- The frame of ADD and MUL. A completed one changes at most the cell at `a3`, to the result of the two source cells, and
the length of Memory stays (R92). A faulted one is FAULTED with a cause, no cell changed and `ip` as before: R85, R86,
R110 and R111, with the spec's decisions D3 and D6; that this is a next state is log entry 3. The parameters stay (R4). -/
def Obligations.AddAndMulFrame : Prop :=
  ∀ (s t : State) (i : Instr) (a1 a2 a3 : Int) (f : Int → Int → Int),
    (i = .add a1 a2 a3 ∧ f = (fun v1 v2 => v1 + v2)) ∨ (i = .mul a1 a2 a3 ∧ f = (fun v1 v2 => v1 * v2)) →
    exec i s = .next t →
    t.cfg = s.cfg ∧ t.mem.length = s.mem.length ∧
    (∀ a : Int, a ≠ a3 → memRead t.mem a = memRead s.mem a) ∧
    ((t.run = s.run ∧ t.fault = s.fault ∧ t.ip = s.ip + 4 ∧
        ∃ v1 v2, memRead s.mem a1 = .ok v1 ∧ memRead s.mem a2 = .ok v2 ∧ memRead t.mem a3 = .ok (f v1 v2)) ∨
      (t.run = .faulted ∧ t.fault ≠ none ∧ t.ip = s.ip ∧ ∀ a : Int, memRead t.mem a = memRead s.mem a))

/-- R89: swapping the two source addresses of ADD or MUL changes nothing, but that with both invalid the reported address
is the one that stands first (decision D5). -/
def Obligations.SourcesCommute : Prop :=
  ∀ (s : State) (a1 a2 a3 : Int),
    (inBounds s.mem a1 = true ∨ inBounds s.mem a2 = true →
      exec (.add a1 a2 a3) s = exec (.add a2 a1 a3) s ∧ exec (.mul a1 a2 a3) s = exec (.mul a2 a1 a3) s) ∧
    (inBounds s.mem a1 = false → inBounds s.mem a2 = false →
      exec (.add a1 a2 a3) s = .next { s with run := .faulted, fault := some (.outOfBoundsAccess a1) } ∧
      exec (.mul a1 a2 a3) s = .next { s with run := .faulted, fault := some (.outOfBoundsAccess a1) })

/-- A halt written by an ADD or MUL over the next opcode word is seen by the very next fetch, and its own parameter words
still count as they were read (R45, R42): two steps end HALTED at `ip + 4`. -/
def Obligations.PlantedHaltIsFetchedNext : Prop :=
  ∀ (s : State) (a1 a2 v1 v2 : Int), s.run = .running →
    s.mem[s.ip + 1]? = some a1 → s.mem[s.ip + 2]? = some a2 → s.mem[s.ip + 3]? = some ((s.ip + 4 : Nat) : Int) →
    s.ip + 4 < s.mem.length → memRead s.mem a1 = .ok v1 → memRead s.mem a2 = .ok v2 →
    representable s.cfg.xlen 99 = true →
    (s.mem[s.ip]? = some 1 ∧ v1 + v2 = 99) ∨ (s.mem[s.ip]? = some 2 ∧ v1 * v2 = 99) →
    runSteps 2 s = { s with mem := s.mem.set (s.ip + 4) 99, ip := s.ip + 4, run := .halted }

/-- R81: the machine agrees with the direct evaluator, the pseudocode of R72, R85, R86 and R95 line by line, on every
instruction boundary and after any number of steps; where the evaluator has no step the machine has none. -/
def Obligations.StepAgreesWithDirectEvaluation : Prop :=
  (∀ s t : State, step s = .next t ↔ refStep s = some t) ∧
  (∀ (k : Nat) (s : State), runSteps k s = refSteps k s)

/-- R12: no step changes the length of Memory, over any run, and an access outside it is a fault and never an extension;
nor does a step change the parameters (R4). -/
def Obligations.MemoryLengthAndParametersAreFixed : Prop :=
  (∀ s t : State, Reaches s t → t.mem.length = s.mem.length ∧ t.cfg = s.cfg) ∧
  (∀ (m : Memory) (a v : Int), (a < 0 ∨ (m.length : Int) ≤ a) →
    memWrite m a v = .error (.outOfBoundsAccess a) ∧ memRead m a = .error (.outOfBoundsAccess a))

/-- Control flow is a straight line: after `k` steps that leave the machine RUNNING, the next instruction is fetched `4k`
words further, whatever was written (R80, the advance by 4 after an ADD or MUL; what HLT does is stated apart). -/
def Obligations.FetchAddressesAreAStraightLine : Prop :=
  ∀ (k : Nat) (s : State), (runSteps k s).run = .running → (runSteps k s).ip = s.ip + 4 * k

/-- Every run ends: from every state in RUNNING, `floor(MEM_LEN / 4) + 1` steps reach HALTED or FAULTED (R78). -/
def Obligations.EveryRunEndsWithinItsBound : Prop :=
  ∀ s : State, s.run = .running →
    (runSteps (s.mem.length / 4 + 1) s).run ≠ .running ∧ Reaches s (runSteps (s.mem.length / 4 + 1) s)

/-- A terminal state is frozen: nothing but itself is reached from HALTED or FAULTED; there is no return and no retry
(R27, R113). -/
def Obligations.TerminalStatesAreFrozen : Prop :=
  ∀ s t : State, s.run ≠ .running → Reaches s t → t = s

/-- The invariant holds at `State.reset`. -/
def Obligations.ResetStateMeetsTheInvariant : Prop := State.reset.Inv

/-- Every admitted reset, configured or not, the faulting one included, gives a state that meets the invariant. -/
def Obligations.EveryResetMeetsTheInvariant : Prop :=
  ∀ (l : Launch) (s : State), resetFrom l = .next s → s.Inv

/-- Every step keeps the invariant: the range of words, `ip` a multiple of 4 inside Memory, a fault record exactly in
FAULTED and true of the state, and a HALTED machine standing on the word that halted it. -/
def Obligations.StepKeepsTheInvariant : Prop :=
  ∀ s t : State, s.Inv → step s = .next t → t.Inv

/-- A HALTED machine has an Output: Memory is not empty and `out` is its word at address 0 (R97). -/
def Obligations.HaltedMachineHasAnOutput : Prop :=
  ∀ s : State, s.Inv → s.run = .halted → ∃ v, s.mem[0]? = some v ∧ out s = some v

/-- The host reads the Output only in HALTED, and cells and `ip` only in a terminal state, where it reads them as they are
(R143, R145, decisions D18 and D23). -/
def Obligations.HostReadsOnlyInTerminalStates : Prop :=
  ∀ s : State,
    (outValid s = true ↔ s.run = .halted) ∧
    (s.run ≠ .halted → out s = none) ∧
    (s.run = .running → readBackIp s = none ∧ ∀ a, readBack s a = none) ∧
    (s.run ≠ .running → readBackIp s = some s.ip ∧ ∀ a, readBack s a = s.mem[a]?)

/-- The reset procedure (R131, R132, R134), for an admitted `XLEN`, capacity and image. A configured reset outside 0 to 99 is
refused by name: R133 with the spec's decision D9, and log entry 7 (DESIGN CHOICE). Any other gives the copy at
`ip = 0` with the parameters at 1 and 2 and every other cell as in the image, or FAULTED with the unmodified copy when
Memory is too short to configure (R114, decision D8). -/
def Obligations.ResetFollowsItsProcedure : Prop :=
  ∀ l : Launch, xlenAdmitted l.cfg.xlen = true → fitsCapacity l.cfg l.image.length = true →
    Memory.wf l.cfg.xlen l.image = true →
    (l.cfgEnable = true ∧ ¬ (0 ≤ l.noun ∧ l.noun < 100 ∧ 0 ≤ l.verb ∧ l.verb < 100) →
      resetFrom l = .refused .parametersOutOfRange) ∧
    (l.cfgEnable = false →
      resetFrom l = .next { cfg := l.cfg, mem := l.image, ip := 0, run := .running, fault := none }) ∧
    (l.cfgEnable = true → 0 ≤ l.noun → l.noun < 100 → 0 ≤ l.verb → l.verb < 100 →
      (l.image.length ≤ 1 → resetFrom l =
        .next { cfg := l.cfg, mem := l.image, ip := 0, run := .faulted, fault := some (.outOfBoundsAccess 1) }) ∧
      (l.image.length = 2 → resetFrom l =
        .next { cfg := l.cfg, mem := l.image, ip := 0, run := .faulted, fault := some (.outOfBoundsAccess 2) }) ∧
      (3 ≤ l.image.length → ∃ m : Memory,
        resetFrom l = .next { cfg := l.cfg, mem := m, ip := 0, run := .running, fault := none } ∧
        m.length = l.image.length ∧ m[1]? = some l.noun ∧ m[2]? = some l.verb ∧
        ∀ k : Nat, k ≠ 1 → k ≠ 2 → m[k]? = l.image[k]?))

/-- A reset is refused exactly for a finite `XLEN` below 8, an image over capacity, an image word that is no word, or a
configured reset with a parameter outside 0 to 99 (R4, R133, R135, D9, D21; log entry 7). -/
def Obligations.ResetIsRefusedExactlyWhenNotAdmitted : Prop :=
  ∀ l : Launch, (∃ r, resetFrom l = .refused r) ↔
    (∃ n, l.cfg.xlen = .bits n ∧ n < 8) ∨ (∃ n, l.cfg.memMax = some n ∧ n < l.image.length) ∨
    (∃ w ∈ l.image, representable l.cfg.xlen w = false) ∨
    (l.cfgEnable = true ∧ ¬ (0 ≤ l.noun ∧ l.noun < 100 ∧ 0 ≤ l.verb ∧ l.verb < 100))

/-- An image whose word at address 0 is 99 halts at its first step and Memory stays word for word (R82). -/
def Obligations.HaltFirstImageIsUnchanged : Prop :=
  ∀ s : State, s.run = .running → s.ip = 0 → s.mem[0]? = some 99 → runToEnd s = { s with run := .halted }

/-- The same machine with unbounded words (`XLEN = inf`). -/
def Sys2Proof.Machine.unbounded (s : State) : State := { s with cfg := { s.cfg with xlen := .inf } }

/-- In every run that does not fault, at any `XLEN`, every cell holds exactly the value the unbounded semantics gives it,
after any number of steps (R88, decision D1). -/
def Obligations.FiniteWidthRefinesUnbounded : Prop :=
  ∀ (k : Nat) (s : State), (runSteps k s).run ≠ .faulted →
    runSteps k (unbounded s) = unbounded (runSteps k s)

/-- A run ends HALTED exactly when every state in RUNNING that it reaches meets the conditions (a) to (d) of R136, under
the policy `fault`. -/
def Obligations.RunHaltsExactlyUnderTheProgramConditions : Prop :=
  ∀ s : State, s.run = .running → s.cfg.unknownOpcodePolicy = .fault →
    ((runToEnd s).run = .halted ↔ ∀ t, Reaches s t → t.run = .running → StepOk t)

/-- R151: the scan order is row-major over all 10,000 pairs. -/
def Obligations.ScanOrderIsRowMajor : Prop :=
  scanOrder.length = 10000 ∧
  ∀ n v : Nat, n < 100 → v < 100 → scanOrder[100 * n + v]? = some (n, v)

/-- `find` returns the first pair in row-major order whose trial halts with the target (R153), and only when every earlier
trial HALTED with another Output: an earlier trial that faults ends the search instead (R156, the spec's decision D22),
and so does one whose reset is refused (log entry 10, DESIGN CHOICE). -/
def Obligations.FindReturnsTheFirstMatch : Prop :=
  ∀ (cfg : Config) (program : List Word) (target : Int) (n v : Nat),
    find cfg program target = .found n v ↔
      n < 100 ∧ v < 100 ∧ trial cfg program n v = .output target ∧
      ∀ n' v' : Nat, v' < 100 → (n' < n ∨ (n' = n ∧ v' < v)) →
        ∃ w, trial cfg program n' v' = .output w ∧ w ≠ target

/-- `find` fails with NotFound exactly when all 10,000 trials halt with another Output (R154), and with the fault of the first
trial that faults before any match (R156, the spec's decision D22). An earlier refused trial ends the search with its
refusal instead (log entry 10, DESIGN CHOICE). -/
def Obligations.FindFailsOnExhaustionOrFirstFault : Prop :=
  ∀ (cfg : Config) (program : List Word) (target : Int),
    (find cfg program target = .notFound ↔
      ∀ n v : Nat, n < 100 → v < 100 → ∃ w, trial cfg program n v = .output w ∧ w ≠ target) ∧
    (∀ c : FaultCause, find cfg program target = .faulted c ↔
      ∃ n v : Nat, n < 100 ∧ v < 100 ∧ trial cfg program n v = .faulted c ∧
        ∀ n' v' : Nat, v' < 100 → (n' < n ∨ (n' = n ∧ v' < v)) →
          ∃ w, trial cfg program n' v' = .output w ∧ w ≠ target)

/-- Trials dispatched in any order, with the least deciding pair kept, give the serial result (R157, the spec's decision
D22). That a trial that faults decides as a match does is log entry 17 (DESIGN CHOICE); that a refused one does too is
log entry 10 (DESIGN CHOICE). -/
def Obligations.ParallelSearchGivesTheSerialResult : Prop :=
  ∀ (cfg : Config) (program : List Word) (target : Int) (schedule : List (Nat × Nat)),
    schedule.Perm scanOrder → findScheduled cfg program target schedule = find cfg program target

/-- Every trial ends: HALTED with an Output, FAULTED with a cause, or refused at its reset (R78, R97, R152). -/
def Obligations.EveryTrialIsDecided : Prop :=
  ∀ (cfg : Config) (program : List Word) (n v : Nat), trial cfg program n v ≠ .unfinished

/-- The loader reads back every image that is written out in the text format, with blanks around the line trimmed (R62;
the strict reading of D20 and the blanks are log entry 9). -/
def Obligations.LoaderReadsBackEveryImage : Prop :=
  ∀ (x : XLen) (image : List Word) (before after : List Char),
    image ≠ [] → Memory.wf x image = true → (∀ c ∈ before, isBlank c = true) → (∀ c ∈ after, isBlank c = true) →
    parseProgram x (before ++ renderProgram image ++ after) = .ok image

/-- The surrounding program succeeds exactly when the text loads, the canonical run halts and the search finds a pair,
and it reports both results and the derived value `100 * noun + verb` (R158, R159). -/
def Obligations.InvocationReportsBothResultsOrNone : Prop :=
  ∀ (cfg : Config) (text : List Char) (target output : Int) (n v d : Nat),
    invoke cfg text target = .success output n v d ↔
      ∃ program, parseProgram cfg.xlen text = .ok program ∧ trial cfg program 12 2 = .output output ∧
        find cfg program target = .found n v ∧ d = 100 * n + v
end

