-- ==== Sys2Proof/Laws/Decode.lean ====
section
/-! SUPPORT. What the lookup and the decoder can answer. -/

namespace Sys2Proof

theorem lookup_one : lookup 1 = some { opcode := 1, size := 4, kind := .add } := by decide

theorem lookup_two : lookup 2 = some { opcode := 2, size := 4, kind := .mul } := by decide

theorem lookup_ninetyNine : lookup 99 = some { opcode := 99, size := 1, kind := .hlt } := by decide

theorem lookup_eq_none (w : Word) (h1 : w ≠ 1) (h2 : w ≠ 2) (h3 : w ≠ 99) : lookup w = none := by
  simp [lookup, registry, Ne.symm h1, Ne.symm h2, Ne.symm h3]

/-- No two rows of the Registry have one opcode word. -/
theorem registry_opcodes_distinct : registry.Pairwise (fun p q => p.opcode ≠ q.opcode) := by decide

theorem decode_one (rest : List Word) : decode (1 :: rest) = decodeParams Instr.add rest := rfl

theorem decode_two (rest : List Word) : decode (2 :: rest) = decodeParams Instr.mul rest := rfl

theorem decode_ninetyNine (rest : List Word) : decode (99 :: rest) = .instr .hlt rest := rfl

theorem decode_unknown (w : Word) (rest : List Word) (h1 : w ≠ 1) (h2 : w ≠ 2) (h3 : w ≠ 99) :
    decode (w :: rest) = .rejected (.unknownOpcode w) := by
  simp [decode, lookup_eq_none w h1 h2 h3]

/-- The three parameter words, or the number of the first missing one: the whole of `decodeParams`. -/
theorem decodeParams_instr_iff (mk : Word → Word → Word → Instr) (ws rest : List Word) (i : Instr) :
    decodeParams mk ws = .instr i rest ↔ ∃ a1 a2 a3, ws = a1 :: a2 :: a3 :: rest ∧ i = mk a1 a2 a3 := by
  rcases ws with _ | ⟨w1, _ | ⟨w2, _ | ⟨w3, ws⟩⟩⟩
  case cons.cons.cons =>
    constructor
    · intro h
      simp only [decodeParams, Decoded.instr.injEq] at h
      exact ⟨w1, w2, w3, by rw [h.2], h.1.symm⟩
    · rintro ⟨a1, a2, a3, h, rfl⟩
      simp_all [decodeParams]
  all_goals simp [decodeParams]

theorem decodeParams_rejected_iff (mk : Word → Word → Word → Instr) (ws : List Word) (r : Reject) :
    decodeParams mk ws = .rejected r ↔ ws.length < 3 ∧ r = .missingParameter (ws.length + 1) := by
  rcases ws with _ | ⟨w1, _ | ⟨w2, _ | ⟨w3, ws⟩⟩⟩ <;> simp [decodeParams, eq_comm (a := r)]

end Sys2Proof
end

