-- ==== Sys2Proof/Laws/State.lean ====
section
/-! SUPPORT. The fields of a state after each named update, one lemma per field and update. -/

namespace Sys2Proof.Machine

@[simp] theorem raise_cfg (c : FaultCause) (s : State) : (raise c s).cfg = s.cfg := rfl
@[simp] theorem raise_mem (c : FaultCause) (s : State) : (raise c s).mem = s.mem := rfl
@[simp] theorem raise_ip (c : FaultCause) (s : State) : (raise c s).ip = s.ip := rfl
@[simp] theorem raise_run (c : FaultCause) (s : State) : (raise c s).run = .faulted := rfl
@[simp] theorem raise_fault (c : FaultCause) (s : State) : (raise c s).fault = some c := rfl

@[simp] theorem halt_cfg (s : State) : (halt s).cfg = s.cfg := rfl
@[simp] theorem halt_mem (s : State) : (halt s).mem = s.mem := rfl
@[simp] theorem halt_ip (s : State) : (halt s).ip = s.ip := rfl
@[simp] theorem halt_run (s : State) : (halt s).run = .halted := rfl
@[simp] theorem halt_fault (s : State) : (halt s).fault = s.fault := rfl

@[simp] theorem advance_cfg (n : Nat) (s : State) : (advance n s).cfg = s.cfg := rfl
@[simp] theorem advance_mem (n : Nat) (s : State) : (advance n s).mem = s.mem := rfl
@[simp] theorem advance_ip (n : Nat) (s : State) : (advance n s).ip = s.ip + n := rfl
@[simp] theorem advance_run (n : Nat) (s : State) : (advance n s).run = s.run := rfl
@[simp] theorem advance_fault (n : Nat) (s : State) : (advance n s).fault = s.fault := rfl

@[simp] theorem withMem_cfg (m : Memory) (s : State) : (withMem m s).cfg = s.cfg := rfl
@[simp] theorem withMem_mem (m : Memory) (s : State) : (withMem m s).mem = m := rfl
@[simp] theorem withMem_ip (m : Memory) (s : State) : (withMem m s).ip = s.ip := rfl
@[simp] theorem withMem_run (m : Memory) (s : State) : (withMem m s).run = s.run := rfl
@[simp] theorem withMem_fault (m : Memory) (s : State) : (withMem m s).fault = s.fault := rfl

@[simp] theorem unknownOpcode_cfg (w : Word) (s : State) : (unknownOpcode w s).cfg = s.cfg := by
  unfold unknownOpcode; split <;> rfl
@[simp] theorem unknownOpcode_mem (w : Word) (s : State) : (unknownOpcode w s).mem = s.mem := by
  unfold unknownOpcode; split <;> rfl
@[simp] theorem unknownOpcode_ip (w : Word) (s : State) : (unknownOpcode w s).ip = s.ip := by
  unfold unknownOpcode; split <;> rfl

theorem unknownOpcode_of_fault (w : Word) (s : State) (h : s.cfg.unknownOpcodePolicy = .fault) :
    unknownOpcode w s = raise (.unknownOpcode w) s := by simp [unknownOpcode, h]

theorem unknownOpcode_of_halt (w : Word) (s : State) (h : s.cfg.unknownOpcodePolicy = .halt) :
    unknownOpcode w s = halt s := by simp [unknownOpcode, h]

end Sys2Proof.Machine
end

