-- ==== Sys2Proof/Laws/Memory.lean ====
section
/-! SUPPORT. What the checked accesses can answer, and that they keep Memory well formed. -/

namespace Sys2Proof.Machine

theorem inBounds_iff (m : Memory) (a : Int) : inBounds m a = true ↔ 0 ≤ a ∧ a < (m.length : Int) := by
  simp [inBounds]

theorem checkAddress_ok_iff (m : Memory) (a : Int) (u : Unit) :
    checkAddress m a = .ok u ↔ inBounds m a = true := by
  unfold checkAddress; split <;> simp_all

theorem checkAddress_error_iff (m : Memory) (a : Int) (c : FaultCause) :
    checkAddress m a = .error c ↔ inBounds m a = false ∧ c = .outOfBoundsAccess a := by
  unfold checkAddress; split <;> simp_all [eq_comm (a := c)]

theorem memRead_ok_iff (m : Memory) (a : Int) (w : Word) :
    memRead m a = .ok w ↔ 0 ≤ a ∧ m[a.toNat]? = some w := by
  unfold memRead
  split
  · simp; omega
  · split <;> simp_all

theorem memRead_error_iff (m : Memory) (a : Int) (c : FaultCause) :
    memRead m a = .error c ↔ inBounds m a = false ∧ c = .outOfBoundsAccess a := by
  have hb : inBounds m a = false ↔ ¬ (0 ≤ a ∧ a < (m.length : Int)) := by
    rw [← inBounds_iff]; simp
  unfold memRead
  split
  · rw [hb]; simp [eq_comm (a := c)]; omega
  · split
    · next w hw =>
      have := (List.getElem?_eq_some_iff.mp hw).1
      rw [hb]; simp; omega
    · next hw =>
      have := List.getElem?_eq_none_iff.mp hw
      rw [hb]; simp [eq_comm (a := c)]; omega

theorem memRead_natCast (m : Memory) (n : Nat) (w : Word) : memRead m (n : Int) = .ok w ↔ m[n]? = some w := by
  simp [memRead_ok_iff]

/-- A checked read answers a word exactly on a valid address. -/
theorem memRead_ok_of_inBounds (m : Memory) (a : Int) (h : inBounds m a = true) : ∃ w, memRead m a = .ok w := by
  cases hr : memRead m a with
  | ok w => exact ⟨w, rfl⟩
  | error c => simp [((memRead_error_iff m a c).mp hr).1] at h

theorem memWrite_ok_iff (m : Memory) (a : Int) (v : Word) (m' : Memory) :
    memWrite m a v = .ok m' ↔ inBounds m a = true ∧ m' = m.set a.toNat v := by
  unfold memWrite; split <;> simp_all [eq_comm (a := m')]

theorem memWrite_error_iff (m : Memory) (a : Int) (v : Word) (c : FaultCause) :
    memWrite m a v = .error c ↔ inBounds m a = false ∧ c = .outOfBoundsAccess a := by
  unfold memWrite; split <;> simp_all [eq_comm (a := c)]

theorem memWrite_length {m m' : Memory} {a : Int} {v : Word} (h : memWrite m a v = .ok m') :
    m'.length = m.length := by
  rw [((memWrite_ok_iff ..).mp h).2]; simp

/-- The wf predicate, cell by cell. -/
theorem wf_iff (x : XLen) (m : Memory) : Memory.wf x m = true ↔ ∀ w ∈ m, representable x w = true := by
  simp [Memory.wf]

/-- A cell replaced by a word keeps Memory well formed. -/
theorem wf_set {x : XLen} {m : Memory} (n : Nat) {v : Word} (hm : Memory.wf x m = true)
    (hv : representable x v = true) : Memory.wf x (m.set n v) = true := by
  rw [wf_iff] at *
  intro w hw
  rcases List.mem_or_eq_of_mem_set hw with h | rfl
  · exact hm w h
  · exact hv

/-- The checked write keeps Memory well formed. -/
theorem memWrite_wf {x : XLen} {m m' : Memory} {a : Int} {v : Word} (h : memWrite m a v = .ok m')
    (hm : Memory.wf x m = true) (hv : representable x v = true) : Memory.wf x m' = true := by
  rw [((memWrite_ok_iff ..).mp h).2]; exact wf_set _ hm hv

/-- The memory after reset is well formed. -/
theorem reset_mem_wf : Memory.wf State.reset.cfg.xlen State.reset.mem = true := rfl

end Sys2Proof.Machine
end

