-- ==== Sys2Proof/Laws/Exec.lean ====
section
/-! SUPPORT. What executing an instruction can do, said once. -/

namespace Sys2Proof.Machine

/-- Memory after a completed ADD or MUL: every check passed, and one cell replaced (R85, R86, R92). -/
theorem arithmeticResult_ok_iff (f : Int → Int → Int) (a1 a2 a3 : Word) (s : State) (m : Memory) :
    arithmeticResult f a1 a2 a3 s = .ok m ↔ ∃ v1 v2, memRead s.mem a1 = .ok v1 ∧ memRead s.mem a2 = .ok v2 ∧
      inBounds s.mem a3 = true ∧ representable s.cfg.xlen (f v1 v2) = true ∧ m = s.mem.set a3.toNat (f v1 v2) := by
  unfold arithmeticResult sourceOperand exactResult
  cases h1 : memRead s.mem a1 with
  | error c => simp [bind, Except.bind]
  | ok v1 =>
    cases h2 : memRead s.mem a2 with
    | error c => simp [bind, Except.bind]
    | ok v2 =>
      by_cases h3 : inBounds s.mem a3 = true <;> by_cases h4 : representable s.cfg.xlen (f v1 v2) = true <;>
        simp [bind, Except.bind, checkAddress, memWrite, h3, h4, eq_comm (a := m)]

/-- The fault of an ADD or MUL: the first failing check in the order of R87. -/
theorem arithmeticResult_error_cases {f : Int → Int → Int} {a1 a2 a3 : Word} {s : State} {c : FaultCause}
    (h : arithmeticResult f a1 a2 a3 s = .error c) :
    (inBounds s.mem a1 = false ∧ c = .outOfBoundsAccess a1) ∨
    (inBounds s.mem a1 = true ∧ inBounds s.mem a2 = false ∧ c = .outOfBoundsAccess a2) ∨
    (inBounds s.mem a1 = true ∧ inBounds s.mem a2 = true ∧ inBounds s.mem a3 = false ∧ c = .outOfBoundsAccess a3) ∨
    (∃ v1 v2, memRead s.mem a1 = .ok v1 ∧ memRead s.mem a2 = .ok v2 ∧ inBounds s.mem a3 = true ∧
      representable s.cfg.xlen (f v1 v2) = false ∧ c = .arithmeticOverflow) := by
  have read_inBounds : ∀ a v, memRead s.mem a = .ok v → inBounds s.mem a = true := by
    intro a v hv
    by_contra hb
    have := (memRead_error_iff s.mem a (.outOfBoundsAccess a)).mpr ⟨by simpa using hb, rfl⟩
    simp [this] at hv
  unfold arithmeticResult sourceOperand exactResult at h
  cases h1 : memRead s.mem a1 with
  | error d =>
    obtain ⟨hb, rfl⟩ := (memRead_error_iff ..).mp h1
    simp [h1, bind, Except.bind] at h
    exact .inl ⟨hb, h.symm⟩
  | ok v1 =>
    cases h2 : memRead s.mem a2 with
    | error d =>
      obtain ⟨hb, rfl⟩ := (memRead_error_iff ..).mp h2
      simp [h1, h2, bind, Except.bind] at h
      exact .inr (.inl ⟨read_inBounds _ _ h1, hb, h.symm⟩)
    | ok v2 =>
      by_cases h3 : inBounds s.mem a3 = true
      · by_cases h4 : representable s.cfg.xlen (f v1 v2) = true <;>
          simp [h1, h2, bind, Except.bind, checkAddress, memWrite, h3, h4] at h
        exact .inr (.inr (.inr ⟨v1, v2, rfl, rfl, h3, by simpa using h4, h.symm⟩))
      · simp [h1, h2, bind, Except.bind, checkAddress, h3] at h
        exact .inr (.inr (.inl ⟨read_inBounds _ _ h1, read_inBounds _ _ h2, by simpa using h3, h.symm⟩))

/-- ADD and MUL always answer a next state: the completed one or the faulted one (R72, R110). -/
theorem arithmetic_next_iff (f : Int → Int → Int) (n : Nat) (a1 a2 a3 : Word) (s t : State) :
    arithmetic f n a1 a2 a3 s = .next t ↔
      (∃ m, arithmeticResult f a1 a2 a3 s = .ok m ∧ t = advance n (withMem m s)) ∨
      (∃ c, arithmeticResult f a1 a2 a3 s = .error c ∧ t = raise c s) := by
  unfold arithmetic
  cases arithmeticResult f a1 a2 a3 s <;> simp [eq_comm (a := t)]

/-- The function an arithmetic instruction computes. -/
theorem exec_add (a1 a2 a3 : Word) (s : State) :
    exec (.add a1 a2 a3) s = arithmetic (fun v1 v2 => v1 + v2) 4 a1 a2 a3 s := rfl

theorem exec_mul (a1 a2 a3 : Word) (s : State) :
    exec (.mul a1 a2 a3) s = arithmetic (fun v1 v2 => v1 * v2) 4 a1 a2 a3 s := rfl

theorem exec_hlt (s : State) : exec .hlt s = .next (halt s) := rfl

end Sys2Proof.Machine
end

