-- ==== Sys2Proof/Laws/Flags.lean ====
section
/-! SUPPORT. The range test, as inequalities. -/

namespace Sys2Proof.Machine

theorem representable_inf (v : Int) : representable .inf v = true := rfl

theorem representable_bits_iff (n : Nat) (v : Int) : representable (.bits n) v = true ↔
    -((2 ^ (n - 1) : Nat) : Int) ≤ v ∧ v ≤ ((2 ^ (n - 1) : Nat) : Int) - 1 := by
  unfold representable
  rw [Bool.and_eq_true, decide_eq_true_iff, decide_eq_true_iff]
  rfl

theorem xlenAdmitted_bits_iff (n : Nat) : xlenAdmitted (.bits n) = true ↔ 8 ≤ n := by
  unfold xlenAdmitted
  rw [decide_eq_true_iff]
  rfl

/-- 99 and the values 0 to 99 of the Parameters fit every admitted `XLEN` (R133). -/
theorem representable_of_small {x : XLen} (hx : xlenAdmitted x = true) {v : Int} (h0 : 0 ≤ v) (h1 : v < 100) :
    representable x v = true := by
  cases x with
  | inf => rfl
  | bits n =>
    rw [xlenAdmitted_bits_iff] at hx
    rw [representable_bits_iff]
    have hp : 2 ^ 7 ≤ 2 ^ (n - 1) := Nat.pow_le_pow_right (by omega) (by omega)
    omega

end Sys2Proof.Machine
end

