-- ==== Sys2Proof/Laws/Host.lean ====
section
/-! SUPPORT. The equations of the host procedures. -/

namespace Sys2Proof.Machine

theorem scan_nil (cfg : Config) (program : List Word) (target : Word) : scan cfg program target [] = .notFound := rfl

theorem scan_cons_decided (cfg : Config) (program : List Word) (target : Word) (p : Nat × Nat) (ps : List (Nat × Nat))
    {r : SearchResult} (h : decides target p (trial cfg program p.1 p.2) = some r) :
    scan cfg program target (p :: ps) = r := by simp [scan, h]

theorem scan_cons_undecided (cfg : Config) (program : List Word) (target : Word) (p : Nat × Nat) (ps : List (Nat × Nat))
    (h : decides target p (trial cfg program p.1 p.2) = none) :
    scan cfg program target (p :: ps) = scan cfg program target ps := by simp [scan, h]

theorem out_of_halted {s : State} (h : s.run = .halted) : out s = s.mem[0]? := by
  simp [out, outValid, h, Config.outAddr]

theorem out_of_not_halted {s : State} (h : s.run ≠ .halted) : out s = none := by
  simp [out, outValid, h]

theorem digitValue_digitChar (d : Nat) (h : d < 10) : digitValue (digitChar d) = some d := by
  interval_cases d <;> decide

theorem splitCommas_comma (cs : List Char) : splitCommas (',' :: cs) = [] :: splitCommas cs := by
  simp [splitCommas]

end Sys2Proof.Machine
end

