-- ==== Sys2Proof/Laws/Reset.lean ====
section
/-! SUPPORT. What a reset can answer, said once. -/

namespace Sys2Proof.Machine

theorem inParamRange_iff (v : Int) : inParamRange v = true ↔ 0 ≤ v ∧ v < 100 := by
  unfold inParamRange
  rw [Bool.and_eq_true, decide_eq_true_iff, decide_eq_true_iff]
  rfl

/-- A reset that answers a state was admitted, and the state is the copy, configured when asked for. -/
theorem resetFrom_next_iff (l : Launch) (s : State) :
    resetFrom l = .next s ↔ launchRefusal l = none ∧
      s = if l.cfgEnable then configure l.noun l.verb (copyImage l) else copyImage l := by
  unfold resetFrom
  cases launchRefusal l <;> simp [eq_comm (a := s)]

theorem resetFrom_refused_iff (l : Launch) (r : Refusal) : resetFrom l = .refused r ↔ launchRefusal l = some r := by
  unfold resetFrom
  cases launchRefusal l <;> simp

/-- A reset never stops with a fault outcome: a reset-time fault is a state (R114). -/
theorem resetFrom_not_fault (l : Launch) (r : Fault) : resetFrom l ≠ .fault r := by
  unfold resetFrom
  cases launchRefusal l <;> simp

theorem launchRefusal_none_iff (l : Launch) :
    launchRefusal l = none ↔ xlenAdmitted l.cfg.xlen = true ∧ fitsCapacity l.cfg l.image.length = true ∧
      Memory.wf l.cfg.xlen l.image = true ∧
      (l.cfgEnable = true → inParamRange l.noun = true ∧ inParamRange l.verb = true) := by
  unfold launchRefusal
  cases xlenAdmitted l.cfg.xlen <;> cases fitsCapacity l.cfg l.image.length <;>
    cases Memory.wf l.cfg.xlen l.image <;> cases l.cfgEnable <;> cases inParamRange l.noun <;>
    cases inParamRange l.verb <;> simp

/-- What the configuration write can do: fault on a short Memory, or write both cells (R134). -/
theorem configure_cases (noun verb : Int) (s : State) :
    (s.mem.length ≤ 1 ∧ configure noun verb s = raise (.outOfBoundsAccess 1) s) ∨
    (s.mem.length = 2 ∧ configure noun verb s = raise (.outOfBoundsAccess 2) s) ∨
    (3 ≤ s.mem.length ∧ configure noun verb s = withMem ((s.mem.set 1 noun).set 2 verb) s) := by
  unfold configure Config.nounAddr Config.verbAddr
  split
  · exact .inl ⟨by assumption, rfl⟩
  · split
    · exact .inr (.inl ⟨by omega, rfl⟩)
    · exact .inr (.inr ⟨by omega, rfl⟩)

end Sys2Proof.Machine
end

