-- ==== Sys2Proof/Laws/Step.lean ====
section
/-! SUPPORT. What one step can do, said once; later proofs cite it instead of unfolding the step. -/

namespace Sys2Proof.Machine

/-- A step exists only in RUNNING, and there it is the running step (R71). -/
theorem step_of_running {s : State} (h : s.run = .running) : step s = stepRunning s := by
  simp [step, stepOnce, h]

/-- A step that answers a state: executing a fetched instruction, an unknown opcode, or a fault of the fetch. -/
theorem step_next_cases {s t : State} (h : step s = .next t) :
    s.run = .running ∧
    ((∃ i, fetch s = .instruction i ∧ exec i s = .next t) ∨
     (∃ w, fetch s = .unknown w ∧ t = unknownOpcode w s) ∨
     (∃ c, fetch s = .raised c ∧ t = raise c s)) := by
  cases hr : s.run with
  | halted => simp [step, stepOnce, hr] at h
  | faulted => simp [step, stepOnce, hr] at h
  | running =>
    rw [step_of_running hr, stepRunning] at h
    refine ⟨rfl, ?_⟩
    cases hf : fetch s with
    | instruction i => exact .inl ⟨i, rfl, by simpa [hf] using h⟩
    | unknown w => exact .inr (.inl ⟨w, rfl, by simpa [hf, eq_comm] using h⟩)
    | raised c => exact .inr (.inr ⟨c, rfl, by simpa [hf, eq_comm] using h⟩)

/-- At the end of Memory the fetch is Truncated (R73). -/
theorem fetch_end (s : State) (h : s.mem.length ≤ s.ip) : fetch s = .raised (.truncated s.ip) := by
  simp [fetch, List.drop_eq_nil_of_le h, decode]

/-- Inside Memory the fetch decodes the word at `ip` and the words after it. -/
theorem drop_of_getElem? {m : Memory} {n : Nat} {w : Word} (h : m[n]? = some w) : m.drop n = w :: m.drop (n + 1) := by
  obtain ⟨hlt, rfl⟩ := List.getElem?_eq_some_iff.mp h
  exact List.drop_eq_getElem_cons hlt

theorem fetch_hlt (s : State) (h : s.mem[s.ip]? = some 99) : fetch s = .instruction .hlt := by
  simp [fetch, drop_of_getElem? h, decode_ninetyNine]

theorem fetch_unknown (s : State) (w : Word) (h : s.mem[s.ip]? = some w) (h1 : w ≠ 1) (h2 : w ≠ 2) (h3 : w ≠ 99) :
    fetch s = .unknown w := by
  simp [fetch, drop_of_getElem? h, decode_unknown w _ h1 h2 h3]

/-- An instruction fetched is the one whose words stand at `ip`. -/
theorem fetch_instruction_cases {s : State} {i : Instr} (h : fetch s = .instruction i) :
    (i = .hlt ∧ s.mem[s.ip]? = some 99) ∨
    (∃ a1 a2 a3, s.mem[s.ip + 1]? = some a1 ∧ s.mem[s.ip + 2]? = some a2 ∧ s.mem[s.ip + 3]? = some a3 ∧
      ((i = .add a1 a2 a3 ∧ s.mem[s.ip]? = some 1) ∨ (i = .mul a1 a2 a3 ∧ s.mem[s.ip]? = some 2))) := by
  cases hm : s.mem[s.ip]? with
  | none => simp [fetch_end s (List.getElem?_eq_none_iff.mp hm)] at h
  | some w =>
    have hd := drop_of_getElem? hm
    have params : ∀ mk : Word → Word → Word → Instr, decode (s.mem.drop s.ip) = decodeParams mk (s.mem.drop (s.ip + 1)) →
        ∃ a1 a2 a3, s.mem[s.ip + 1]? = some a1 ∧ s.mem[s.ip + 2]? = some a2 ∧ s.mem[s.ip + 3]? = some a3 ∧
          i = mk a1 a2 a3 := by
      intro mk hmk
      cases hp : decodeParams mk (s.mem.drop (s.ip + 1)) with
      | rejected r =>
        obtain ⟨_, rfl⟩ := (decodeParams_rejected_iff ..).mp hp
        simp [fetch, hmk, hp] at h
      | instr j rest =>
        simp [fetch, hmk, hp] at h
        subst h
        obtain ⟨a1, a2, a3, he, rfl⟩ := (decodeParams_instr_iff ..).mp hp
        have at_k : ∀ k, s.mem[s.ip + 1 + k]? = (a1 :: a2 :: a3 :: rest)[k]? := by
          intro k; rw [← he, List.getElem?_drop]
        exact ⟨a1, a2, a3, by simpa using at_k 0, by simpa using at_k 1, by simpa using at_k 2, rfl⟩
    by_cases h1 : w = 1
    · obtain ⟨a1, a2, a3, p1, p2, p3, rfl⟩ := params Instr.add (by rw [hd, h1, decode_one])
      exact .inr ⟨a1, a2, a3, p1, p2, p3, .inl ⟨rfl, by rw [h1]⟩⟩
    · by_cases h2 : w = 2
      · obtain ⟨a1, a2, a3, p1, p2, p3, rfl⟩ := params Instr.mul (by rw [hd, h2, decode_two])
        exact .inr ⟨a1, a2, a3, p1, p2, p3, .inr ⟨rfl, by rw [h2]⟩⟩
      · by_cases h3 : w = 99
        · subst h3
          rw [fetch_hlt s hm] at h
          exact .inl ⟨by simpa [eq_comm] using h, rfl⟩
        · rw [fetch_unknown s w hm h1 h2 h3] at h
          simp at h

/-- A word not in the Registry is fetched from `ip`. -/
theorem fetch_unknown_cases {s : State} {w : Word} (h : fetch s = .unknown w) :
    s.mem[s.ip]? = some w ∧ w ≠ 1 ∧ w ≠ 2 ∧ w ≠ 99 := by
  have noParams : ∀ mk : Word → Word → Word → Instr, ∀ ws, decodeParams mk ws ≠ .rejected (.unknownOpcode w) := by
    intro mk ws hp
    have := ((decodeParams_rejected_iff ..).mp hp).2
    simp at this
  unfold fetch at h
  cases hm : s.mem[s.ip]? with
  | none => simp [List.drop_eq_nil_of_le (List.getElem?_eq_none_iff.mp hm), decode] at h
  | some v =>
    rw [drop_of_getElem? hm] at h
    by_cases h1 : v = 1
    · rw [h1, decode_one] at h; split at h <;> simp_all
    · by_cases h2 : v = 2
      · rw [h2, decode_two] at h; split at h <;> simp_all
      · by_cases h3 : v = 99
        · rw [h3, decode_ninetyNine] at h; simp at h
        · rw [decode_unknown v _ h1 h2 h3] at h
          simp at h
          subst h
          exact ⟨rfl, h1, h2, h3⟩

/-- A fault of the fetch: Truncated at the end of Memory, or the first missing parameter word (R73, R59, R87). -/
theorem fetch_raised_cases {s : State} {c : FaultCause} (h : fetch s = .raised c) :
    (s.mem.length ≤ s.ip ∧ c = .truncated s.ip) ∨
    ((s.mem[s.ip]? = some 1 ∨ s.mem[s.ip]? = some 2) ∧ s.mem.length < s.ip + 4 ∧
      c = .outOfBoundsAccess (s.mem.length : Int)) := by
  have missing : ∀ mk : Word → Word → Word → Instr, s.ip < s.mem.length →
      decode (s.mem.drop s.ip) = decodeParams mk (s.mem.drop (s.ip + 1)) →
      s.mem.length < s.ip + 4 ∧ c = .outOfBoundsAccess (s.mem.length : Int) := by
    intro mk hlt hmk
    cases hp : decodeParams mk (s.mem.drop (s.ip + 1)) with
    | instr j rest => simp [fetch, hmk, hp] at h
    | rejected r =>
      obtain ⟨hl, rfl⟩ := (decodeParams_rejected_iff ..).mp hp
      simp [fetch, hmk, hp] at h
      simp at hl
      subst h
      refine ⟨by omega, ?_⟩
      congr 1
      omega
  cases hm : s.mem[s.ip]? with
  | none =>
    have hle := List.getElem?_eq_none_iff.mp hm
    rw [fetch_end s hle] at h
    exact .inl ⟨hle, by simpa [eq_comm] using h⟩
  | some w =>
    have hd := drop_of_getElem? hm
    have hlt := (List.getElem?_eq_some_iff.mp hm).1
    by_cases h1 : w = 1
    · exact .inr ⟨.inl (by rw [h1]), missing Instr.add hlt (by rw [hd, h1, decode_one])⟩
    · by_cases h2 : w = 2
      · exact .inr ⟨.inr (by rw [h2]), missing Instr.mul hlt (by rw [hd, h2, decode_two])⟩
      · by_cases h3 : w = 99
        · rw [fetch_hlt s (by rw [hm, h3])] at h; simp at h
        · rw [fetch_unknown s w hm h1 h2 h3] at h; simp at h

/-- The operands of a fetched ADD or MUL are the effective addresses of R91. -/
theorem fetch_operands_are_effectiveAddresses {s : State} {a1 a2 a3 : Word}
    (h : fetch s = .instruction (.add a1 a2 a3) ∨ fetch s = .instruction (.mul a1 a2 a3)) :
    effectiveAddress s 1 = .ok a1 ∧ effectiveAddress s 2 = .ok a2 ∧ effectiveAddress s 3 = .ok a3 := by
  simp only [effectiveAddress, memRead_natCast]
  rcases h with h | h <;>
    rcases fetch_instruction_cases h with ⟨hi, _⟩ | ⟨b1, b2, b3, e1, e2, e3, ⟨hi, _⟩ | ⟨hi, _⟩⟩ <;>
    simp_all

end Sys2Proof.Machine
end

