-- ==== Sys2Proof/Laws/Run.lean ====
section
/-! SUPPORT. Runs: the induction over reached states packaged once, and the equations of bounded runs. -/

namespace Sys2Proof.Machine

/-- What holds at the start and is kept by every step holds of every reached state. -/
theorem reaches_induction {P : State → Prop} {s t : State} (hreach : Reaches s t) (h0 : P s)
    (hstep : ∀ u v, P u → step u = .next v → P v) : P t := by
  induction hreach with
  | refl => exact h0
  | tail t u _ hs ih => exact hstep t u ih hs

theorem reaches_trans {s t u : State} (h1 : Reaches s t) (h2 : Reaches t u) : Reaches s u := by
  induction h2 with
  | refl => exact h1
  | tail v w _ hs ih => exact .tail s v w ih hs

theorem runSteps_zero (s : State) : runSteps 0 s = s := rfl

theorem runSteps_succ_of_next (k : Nat) {s t : State} (h : step s = .next t) :
    runSteps (k + 1) s = runSteps k t := by
  simp [runSteps, h]

/-- In a terminal state nothing more happens (R27, R71). -/
theorem runSteps_of_terminal (k : Nat) {s : State} (h : s.run ≠ .running) : runSteps k s = s := by
  cases k with
  | zero => rfl
  | succ k =>
    cases hr : s.run with
    | running => exact absurd hr h
    | halted => simp [runSteps, step, stepOnce, hr]
    | faulted => simp [runSteps, step, stepOnce, hr]

theorem runSteps_reaches (k : Nat) (s : State) : Reaches s (runSteps k s) := by
  induction k generalizing s with
  | zero => exact .refl s
  | succ k ih =>
    cases h : step s with
    | next t => rw [runSteps_succ_of_next k h]; exact reaches_trans (.tail s s t (.refl s) h) (ih t)
    | fault r => simp only [runSteps, h]; exact .refl s
    | refused r => simp only [runSteps, h]; exact .refl s

end Sys2Proof.Machine
end

