-- ==== Sys2Proof/Machine/Assembly.lean ====
section
/-! DEFINITION. The spec's own assembly notation (30_encoding.md R63, D13). Not a behaviour of the hardware. -/

namespace Sys2Proof.Machine

/-- An operand of a statement: an address, as a decimal integer or a label (R63). -/
inductive AsmOperand
  | address (a : Word)
  | label (name : List Char)
deriving DecidableEq, Repr

/-- A statement of the notation (R63). -/
inductive AsmStatement
  | label (name : List Char)
  | add (s1 s2 d : AsmOperand)
  | mul (s1 s2 d : AsmOperand)
  | hlt
  | data (vs : List Word)
deriving DecidableEq, Repr

/-- The number of words a statement emits (R63). -/
def asmLength : AsmStatement → Nat
  | .label _ => 0
  | .add _ _ _ => 4
  | .mul _ _ _ => 4
  | .hlt => 1
  | .data vs => vs.length

/-- A label stands for the address of the next word (R63). Of two labels of one name the first counts: DESIGN CHOICE,
log entry 12. -/
def labelAddress (name : List Char) : Nat → List AsmStatement → Option Word
  | _, [] => none
  | a, .label n :: rest => if n = name then some (a : Int) else labelAddress name a rest
  | a, st :: rest => labelAddress name (a + asmLength st) rest

/-- The address an operand stands for in a program; an undefined label has none (log entry 12). -/
def resolveOperand (program : List AsmStatement) : AsmOperand → Option Word
  | .address a => some a
  | .label n => labelAddress n 0 program

/-- The instruction of one statement with its operands resolved. -/
def resolveThree (mk : Word → Word → Word → Instr) (program : List AsmStatement) (s1 s2 d : AsmOperand) :
    Option (List Word) := do
  let a1 ← resolveOperand program s1
  let a2 ← resolveOperand program s2
  let a3 ← resolveOperand program d
  pure (encode (mk a1 a2 a3))

/-- The words of one statement: exactly those of the table of R63. -/
def asmWords (program : List AsmStatement) : AsmStatement → Option (List Word)
  | .label _ => some []
  | .add s1 s2 d => resolveThree Instr.add program s1 s2 d
  | .mul s1 s2 d => resolveThree Instr.mul program s1 s2 d
  | .hlt => some (encode .hlt)
  | .data vs => some vs

/-- The statements from a point on, emitted in order. -/
def asmEmit (program : List AsmStatement) : List AsmStatement → Option (List Word)
  | [] => some []
  | st :: rest => do
    let ws ← asmWords program st
    let more ← asmEmit program rest
    pure (ws ++ more)

/-- The image of a program: its statements emitted in order from address 0 (R63). -/
def assemble (program : List AsmStatement) : Option (List Word) := asmEmit program program

end Sys2Proof.Machine
end

