-- ==== Sys2Proof/Tests/Slice0.lean ====
section
/-! SUPPORT. Tests: expected results are those of the spec's own tables and vectors (95_test_vectors.md), named in each
comment; and a witness for the hypotheses of each statement. -/

namespace Sys2Proof.Tests

open Sys2Proof.Machine

/-- A machine in RUNNING with the default parameters. -/
def st (mem : List Word) (ip : Nat) : State :=
  { cfg := Config.default, mem := mem, ip := ip, run := .running, fault := none }

/-- The same with `XLEN = 8`. -/
def st8 (mem : List Word) : State :=
  { cfg := { Config.default with xlen := .bits 8 }, mem := mem, ip := 0, run := .running, fault := none }

/-- The same with the policy `halt`. -/
def stHalt (mem : List Word) : State :=
  { cfg := { Config.default with unknownOpcodePolicy := .halt }, mem := mem, ip := 0, run := .running, fault := none }

/-- Whether an outcome is this next state. -/
def isNext (o : Host.Outcome State Fault Refusal) (t : State) : Bool :=
  match o with
  | .next s => decide (s = t)
  | .fault _ => false
  | .refused _ => false

/-- Whether an outcome is this refusal. -/
def isRefused (o : Host.Outcome State Fault Refusal) (r : Refusal) : Bool :=
  match o with
  | .next _ => false
  | .fault _ => false
  | .refused q => decide (q = r)

/-- A launch without capacity limit. -/
def launch (x : XLen) (image : List Word) (enable : Bool) (noun verb : Int) : Launch :=
  { cfg := { Config.default with xlen := x }, image := image, cfgEnable := enable, noun := noun, verb := verb }

/-! ### Decoding: words written out from R51 and R52 -/

theorem test_decode_add : decode [1, 9, 10, 3] = .instr (.add 9 10 3) [] := by decide

theorem test_decode_mul : decode [2, 3, 11, 0] = .instr (.mul 3 11 0) [] := by decide

theorem test_decode_hlt : decode [99, 30, 40] = .instr .hlt [30, 40] := by decide

/-- R54: 1001, 101 and 199 are unknown opcodes; so are 0 and -99 (V58, V59). -/
theorem test_decode_unknown : [1001, 101, 199, 0, -99].map (fun w => decode [w, 4, 4, 0, 99]) =
    [1001, 101, 199, 0, -99].map (fun w => Decoded.rejected (.unknownOpcode w)) := by decide

theorem test_decode_missing : [decode [], decode [1], decode [2, 0], decode [1, 0, 0]] =
    [.rejected .noOpcodeWord, .rejected (.missingParameter 1), .rejected (.missingParameter 2),
     .rejected (.missingParameter 3)] := by decide

/-- Each word in 64 bits from bit `64k` on: 1, 4, -1 (`2^64 - 1`), 0. -/
theorem test_decode_table_word :
    decodeTableWord 256 (1 + 4 * 2 ^ 64 + (2 ^ 64 - 1) * 2 ^ 128) = some (.add 4 (-1) 0) ∧
    decodeTableWord 8 99 = some .hlt ∧ decodeTableWord 32 2 = some (.mul 0 0 0) ∧ decodeTableWord 32 3 = none := by
  decide

/-! ### Well-formedness: one ill-formed term for each check -/

theorem test_wellFormed_refuses_a1 : (Instr.add 128 0 0).wellFormed (.bits 8) = false := by decide

theorem test_wellFormed_refuses_a2 : (Instr.mul 0 (-129) 0).wellFormed (.bits 8) = false := by decide

theorem test_wellFormed_refuses_a3 : (Instr.add 127 (-128) 200).wellFormed (.bits 8) = false := by decide

theorem test_wellFormed_accepts : (Instr.add 127 (-128) 0).wellFormed (.bits 8) = true ∧
    (Instr.mul 200 (-129) 1000).wellFormed .inf = true ∧ Instr.hlt.wellFormed (.bits 8) = true := by decide

/-! ### Instructions: one step each -/

/-- V2. -/
theorem test_add_signed : isNext (step (st [1, 5, 6, 0, 99, -7, 3] 0)) (st [-4, 5, 6, 0, 99, -7, 3] 4) = true := by decide

/-- V5: the destination is the instruction's own first parameter word. -/
theorem test_add_overwrites_itself : isNext (step (st [1, 4, 4, 1, 99] 0)) (st [1, 198, 4, 1, 99] 4) = true := by decide

/-- V12. -/
theorem test_mul_signed : isNext (step (st [2, 5, 6, 0, 99, -3, -4] 0)) (st [12, 5, 6, 0, 99, -3, -4] 4) = true := by decide

/-- V17 and V18: -128 fits 8 bits and 128 does not. -/
theorem test_mul_range :
    isNext (step (st8 [2, 5, 6, 0, 99, -64, 2])) (advance 4 (withMem [-128, 5, 6, 0, 99, -64, 2] (st8 []))) = true ∧
    isNext (step (st8 [2, 5, 6, 0, 99, -64, -2])) (raise .arithmeticOverflow (st8 [2, 5, 6, 0, 99, -64, -2])) = true := by
  decide

/-- V51: a HLT in the last and only cell. -/
theorem test_hlt_last_cell : isNext (step (st [99] 0)) (halt (st [99] 0)) = true := by decide

/-- The machine from reset: the empty program runs to Truncated(0) (V55). -/
theorem test_reset_first_step : isNext (step State.reset) (raise (.truncated 0) State.reset) = true := by decide

/-- The first instruction placed after reset runs. -/
theorem test_placed_after_reset :
    isNext (step (State.reset.withFetchWord 32 1)) (st [2, 0, 0, 0] 4) = true ∧
    isNext (step (State.reset.withFetchWord 32 2)) (st [4, 0, 0, 0] 4) = true ∧
    isNext (step (State.reset.withFetchWord 32 99)) (halt (st [99, 0, 0, 0] 0)) = true := by decide

/-! ### Host procedures and notation -/

/-- V70, V73, V74, V75. -/
theorem test_reset_vectors :
    isNext (resetFrom (launch .inf [1, 0, 0, 0, 99, 7] true 12 2)) (st [1, 12, 2, 0, 99, 7] 0) = true ∧
    isNext (resetFrom (launch .inf [99, 0] true 12 2)) (raise (.outOfBoundsAccess 2) (st [99, 0] 0)) = true ∧
    isNext (resetFrom (launch .inf [99] true 12 2)) (raise (.outOfBoundsAccess 1) (st [99] 0)) = true ∧
    isRefused (resetFrom (launch .inf [99, 0, 0] true 100 2)) .parametersOutOfRange = true := by decide

/-- T1. -/
theorem test_search_vectors :
    find Config.default [1, 0, 0, 0, 99] 1 = .found 0 1 ∧ find Config.default [1, 0, 0, 0, 99] 100 = .found 0 4 ∧
    find Config.default [1, 0, 0, 0, 99] 7 = .faulted (.outOfBoundsAccess 5) := by decide

/-- R62, D20. -/
theorem test_loader :
    parseProgram .inf [' ', '1', ',', '-', '1', '2', ',', '0', '\n'] = .ok [1, -12, 0] ∧
    parseProgram .inf ['1', ',', ' ', '2'] = .error (.malformedToken [' ', '2']) ∧
    parseProgram .inf ['+', '5'] = .error (.malformedToken ['+', '5']) ∧
    parseProgram .inf [] = .error (.malformedToken []) ∧
    parseProgram (.bits 8) ['2', '0', '0'] = .error (.notRepresentable 200) := by decide

/-- The table of R100: the codes and the information recorded. -/
theorem test_fault_codes :
    [none, some (.outOfBoundsAccess (-1)), some (.truncated 4), some (.unknownOpcode 3), some .arithmeticOverflow].map
      (fun c => (faultCode c, faultInfo c)) = [(0, none), (1, some (-1)), (2, some 4), (3, some 3), (4, none)] := by
  decide

/-- P3, with labels for the addresses 9 to 12. -/
theorem test_assembly : assemble
    [ .mul (.label ['b']) (.label ['m']) (.label ['t']), .add (.label ['a']) (.label ['t']) (.address 0), .hlt,
      .label ['a'], .data [50], .label ['b'], .data [8], .label ['m'], .data [-1], .label ['t'], .data [0] ] =
    some [2, 10, 11, 12, 1, 9, 12, 0, 99, 50, 8, -1, 0] := by decide

/-! ### Witnesses for the hypotheses of the statements -/

theorem witness_reads : memRead [7, 8, 9] 0 = .ok 7 ∧ memRead [7, 8, 9] 2 = .ok 9 ∧
    memRead [7, 8, 9] 3 = .error (.outOfBoundsAccess 3) ∧ memRead [7, 8, 9] (-1) = .error (.outOfBoundsAccess (-1)) := by
  decide

theorem witness_writes : memWrite [7, 8, 9] 0 5 = .ok [5, 8, 9] ∧ memWrite [7, 8, 9] 2 5 = .ok [7, 8, 5] ∧
    memWrite [7, 8, 9] 3 5 = .error (.outOfBoundsAccess 3) ∧
    memWrite [7, 8, 9] (-1) 5 = .error (.outOfBoundsAccess (-1)) := by decide

theorem witness_table_round_trip :
    (Instr.mul (2 ^ 63 - 1) (-(2 ^ 63)) 0).wellFormed (.bits 64) = true ∧
    decodeTableWord 256 (encodeTableWord (Instr.mul (2 ^ 63 - 1) (-(2 ^ 63)) 0)).2 =
      some (Instr.mul (2 ^ 63 - 1) (-(2 ^ 63)) 0) := by decide

theorem witness_step_runs_decoded : (st [0, 2, 0, 0, 0, 5] 1).run = .running ∧
    decode ((st [0, 2, 0, 0, 0, 5] 1).mem.drop 1) = .instr (.mul 0 0 0) [5] := by decide

theorem witness_placed : decodeTableWord 32 99 = some .hlt ∧ decodeTableWord 256 1 = some (.add 0 0 0) := by decide

/-- V30: the destination is the last cell. -/
theorem witness_add_completes : memRead (st [1, 0, 0, 5, 99, 0] 0).mem 0 = .ok 1 ∧ (0 : Int) ≤ 5 ∧
    (5 : Int) < ((st [1, 0, 0, 5, 99, 0] 0).mem.length : Int) ∧ representable Config.default.xlen (1 + 1) = true := by
  decide

/-- V17: the smallest 8-bit product. -/
theorem witness_mul_completes : memRead (st8 [2, 5, 6, 0, 99, -64, 2]).mem 5 = .ok (-64) ∧
    memRead (st8 [2, 5, 6, 0, 99, -64, 2]).mem 6 = .ok 2 ∧ representable (.bits 8) (-64 * 2) = true := by decide

/-- The three clauses of a missing parameter word (V38, V37, V36). -/
theorem witness_missing_parameters :
    isNext (step (st [1] 0)) (raise (.outOfBoundsAccess 1) (st [1] 0)) = true ∧
    isNext (step (st [2, 0] 0)) (raise (.outOfBoundsAccess 2) (st [2, 0] 0)) = true ∧
    isNext (step (st [1, 0, 0] 0)) (raise (.outOfBoundsAccess 3) (st [1, 0, 0] 0)) = true := by decide

/-- A bad first source, second source, destination; and a bad destination before an overflow (V34, V35, V31, V21). -/
theorem witness_bad_addresses :
    isNext (step (st [1, -1, 0, 0, 99] 0)) (raise (.outOfBoundsAccess (-1)) (st [1, -1, 0, 0, 99] 0)) = true ∧
    isNext (step (st [2, 0, -2, 9, 99] 0)) (raise (.outOfBoundsAccess (-2)) (st [2, 0, -2, 9, 99] 0)) = true ∧
    isNext (step (st [1, 0, 0, 6, 99, 0] 0)) (raise (.outOfBoundsAccess 6) (st [1, 0, 0, 6, 99, 0] 0)) = true ∧
    isNext (step (st8 [2, 5, 5, 9, 99, 12])) (raise (.outOfBoundsAccess 9) (st8 [2, 5, 5, 9, 99, 12])) = true := by
  decide

/-- The overflow and the completion at the end of the range (V9 and V8, with V16 for MUL). -/
theorem witness_overflow :
    isNext (step (st8 [1, 5, 5, 0, 99, 100])) (raise .arithmeticOverflow (st8 [1, 5, 5, 0, 99, 100])) = true ∧
    isNext (step (st8 [1, 5, 6, 0, 99, 100, 27])) (advance 4 (withMem [127, 5, 6, 0, 99, 100, 27] (st8 []))) = true ∧
    isNext (step (st8 [2, 5, 5, 0, 99, 12])) (raise .arithmeticOverflow (st8 [2, 5, 5, 0, 99, 12])) = true := by decide

/-- V56 and V57: the unknown opcode under both policies. -/
theorem witness_unknown_opcode :
    isNext (step (st [3, 0, 0, 0, 99] 0)) (raise (.unknownOpcode 3) (st [3, 0, 0, 0, 99] 0)) = true ∧
    isNext (step (stHalt [3, 0, 0, 0, 99])) (halt (stHalt [3, 0, 0, 0, 99])) = true := by decide

/-- V54: the end of Memory, and the last cell before it. -/
theorem witness_truncated :
    isNext (step (st [2, 0, 0, 0] 4)) (raise (.truncated 4) (st [2, 0, 0, 0] 4)) = true ∧
    (st [99] 0).mem[0]? = some 99 := by decide

/-- V61: a terminal state does not step. -/
theorem witness_terminal : step (halt (st [99] 0)) = .fault .haltedHasNoStep ∧
    step (raise .arithmeticOverflow (st [1] 0)) = .fault .faultedHasNoStep := ⟨rfl, rfl⟩

/-- Both sources invalid, and one of them. -/
theorem witness_sources : inBounds [1, 7, 0] 7 = false ∧ inBounds [1, 7, 0] (-2) = false ∧ inBounds [1, 7, 0] 2 = true := by
  decide

/-- V52: `90 + 9` is planted at the next fetch address. -/
theorem witness_planted_halt : runSteps 2 (st [1, 9, 10, 4, 1, 0, 0, 0, 99, 90, 9] 0) =
    halt (st [1, 9, 10, 4, 99, 0, 0, 0, 99, 90, 9] 4) ∧ memRead (st [1, 9, 10, 4, 1, 0, 0, 0, 99, 90, 9] 0).mem 9 = .ok 90 ∧
    memRead (st [1, 9, 10, 4, 1, 0, 0, 0, 99, 90, 9] 0).mem 10 = .ok 9 := by decide

/-- S2, on the machine and on the direct evaluator. -/
theorem witness_direct_evaluation : refSteps 2 (st [1, 0, 0, 0, 99] 0) = halt (st [2, 0, 0, 0, 99] 4) ∧
    runSteps 2 (st [1, 0, 0, 0, 99] 0) = halt (st [2, 0, 0, 0, 99] 4) := by decide

theorem witness_reaches : Reaches (st [1, 0, 0, 0, 99] 0) (st [2, 0, 0, 0, 99] 4) :=
  .tail _ _ _ (.refl _) rfl

theorem witness_straight_line : (runSteps 1 (st [1, 0, 0, 0, 99] 0)).run = .running := by decide

theorem witness_halts_with : HaltsWith (st [1, 0, 0, 0, 99] 0) 2 :=
  ⟨halt (st [2, 0, 0, 0, 99] 4), .tail _ _ _ witness_reaches rfl, by decide⟩

/-- A state with every kind of component off its reset value that meets the invariant: V54 at its end. -/
theorem witness_invariant_faulted : (raise (.truncated 4) (st [2, 0, 0, 0] 4)).Inv where
  xlenAdmitted := rfl
  capacity := rfl
  memWf := rfl
  ipInMemory := by decide
  ipMultipleOfFour := by decide
  faultRecorded := by decide
  haltedOnHalt := by simp
  faultTrue := by intro c h; simp at h; subst h; exact ⟨rfl, rfl⟩

theorem witness_invariant_halted : (halt (st [2, 0, 0, 0, 99] 4)).Inv where
  xlenAdmitted := rfl
  capacity := rfl
  memWf := rfl
  ipInMemory := by decide
  ipMultipleOfFour := by decide
  faultRecorded := by decide
  haltedOnHalt := fun _ => ⟨99, rfl, .inl rfl⟩
  faultTrue := by intro c h; simp [st] at h

theorem witness_invariant_running : (st [2, 0, 0, 0, 99] 4).Inv where
  xlenAdmitted := rfl
  capacity := rfl
  memWf := rfl
  ipInMemory := by decide
  ipMultipleOfFour := by decide
  faultRecorded := by decide
  haltedOnHalt := by intro h; simp [st] at h
  faultTrue := by intro c h; simp [st] at h

theorem witness_invariant_steps : step (st [2, 0, 0, 0, 99] 4) = .next (halt (st [2, 0, 0, 0, 99] 4)) := rfl

/-- The clauses of the reset procedure at their boundaries: 99 and 0 accepted, 100 and -1 refused, lengths 1, 2, 3. -/
theorem witness_reset_clauses :
    isNext (resetFrom (launch (.bits 8) [99, 0, 0] true 99 0)) (withMem [99, 99, 0] (st8 [])) = true ∧
    isRefused (resetFrom (launch (.bits 8) [99, 0, 0] true 0 (-1))) .parametersOutOfRange = true ∧
    isNext (resetFrom (launch (.bits 8) [99, 0] false 100 (-1))) (st8 [99, 0]) = true := by decide

/-- The four refusals at their boundaries. -/
theorem witness_reset_refusals :
    isRefused (resetFrom (launch (.bits 7) [] false 0 0)) .xlenNotAdmitted = true ∧
    isRefused (resetFrom (launch (.bits 8) [128] false 0 0)) .imageNotRepresentable = true ∧
    isRefused (resetFrom { cfg := { Config.default with memMax := some 1 }, image := [99, 0], cfgEnable := false,
                           noun := 0, verb := 0 }) .imageTooLong = true ∧
    isRefused (resetFrom (launch .inf [99, 0, 0] true 5 100)) .parametersOutOfRange = true := by decide

/-- V50: halt first. -/
theorem witness_halt_first : runToEnd (st [99, 1, 2, 3] 0) = halt (st [99, 1, 2, 3] 0) := by decide

/-- V8 at `XLEN = 8` and unbounded. -/
theorem witness_finite_width : (runSteps 2 (st8 [1, 5, 6, 0, 99, 100, 27])).run = .halted ∧
    (runSteps 2 (st8 [1, 5, 6, 0, 99, 100, 27])).mem = (runSteps 2 (st [1, 5, 6, 0, 99, 100, 27] 0)).mem := by decide

theorem witness_program_conditions : StepOk (st [1, 0, 0, 0, 99] 0) ∧ StepOk (st [2, 0, 0, 0, 99] 4) :=
  ⟨.inr ⟨1, 0, 0, 0, 1, 1, by decide⟩, .inl (by decide)⟩

/-- `(4,4)` also matches 198 in T2; here the earlier of two matches wins, and an exhausted list finds none. -/
theorem witness_first_match : scan Config.default [1, 0, 0, 0, 99] 1 [(0, 0), (0, 1), (0, 3)] = .found 0 1 ∧
    scan Config.default [1, 0, 0, 0, 99] 7 [(0, 0), (0, 1), (0, 2)] = .notFound := by decide

theorem witness_schedule : scanOrder.reverse.Perm scanOrder := List.reverse_perm scanOrder

/-- Two trials out of order give the earlier deciding pair. -/
theorem witness_scheduled : findScheduled Config.default [1, 0, 0, 0, 99] 1 [(0, 3), (0, 1), (0, 0)] = .found 0 1 := by
  decide

theorem witness_loader : Memory.wf (.bits 8) [-5, 0, 127] = true ∧ isBlank ' ' = true ∧
    parseProgram (.bits 8) ([' '] ++ renderProgram [-5, 0, 127] ++ ['\n']) = .ok [-5, 0, 127] := by decide

/-- V70 as a text: the Output 16, then `(0,0)` for the target 2. -/
theorem witness_invocation :
    invoke Config.default (renderProgram [1, 0, 0, 0, 99, 7, 8, 9, 10, 11, 12, 13, 14]) 2 = .success 16 0 0 0 := by decide

end Sys2Proof.Tests
end

section
/-! PROOFS. Memory keeps its length and the machine its parameters over every run (R12, R4). -/

namespace Sys2Proof.Machine

/-- A completed ADD or MUL replaces one cell and so keeps the length of Memory (R12). -/
theorem arithmeticResult_length {f : Int → Int → Int} {a1 a2 a3 : Word} {s : State} {m : Memory}
    (h : arithmeticResult f a1 a2 a3 s = .ok m) : m.length = s.mem.length := by
  obtain ⟨_, _, _, _, _, _, rfl⟩ := (arithmeticResult_ok_iff ..).mp h
  exact List.length_set

/-- Completed or faulted, ADD and MUL keep the length of Memory and the parameters. -/
theorem arithmetic_keeps_length_cfg {f : Int → Int → Int} {n : Nat} {a1 a2 a3 : Word} {s t : State}
    (h : arithmetic f n a1 a2 a3 s = .next t) : t.mem.length = s.mem.length ∧ t.cfg = s.cfg := by
  rcases (arithmetic_next_iff ..).mp h with ⟨m, hm, rfl⟩ | ⟨c, _, rfl⟩
  · exact ⟨arithmeticResult_length hm, rfl⟩
  · exact ⟨rfl, rfl⟩

theorem exec_keeps_length_cfg {i : Instr} {s t : State} (h : exec i s = .next t) :
    t.mem.length = s.mem.length ∧ t.cfg = s.cfg := by
  cases i with
  | add a1 a2 a3 => exact arithmetic_keeps_length_cfg ((exec_add a1 a2 a3 s).symm.trans h)
  | mul a1 a2 a3 => exact arithmetic_keeps_length_cfg ((exec_mul a1 a2 a3 s).symm.trans h)
  | hlt =>
    obtain rfl : halt s = t := by simpa [exec_hlt] using h
    exact ⟨rfl, rfl⟩

/-- No step changes the length of Memory (R12) or a parameter (R4): only an executed instruction touches Memory at all. -/
theorem step_keeps_length_cfg {s t : State} (h : step s = .next t) :
    t.mem.length = s.mem.length ∧ t.cfg = s.cfg := by
  obtain ⟨_, ⟨i, _, hi⟩ | ⟨w, _, rfl⟩ | ⟨c, _, rfl⟩⟩ := step_next_cases h
  · exact exec_keeps_length_cfg hi
  · simp
  · simp

theorem reaches_keeps_length_cfg {s t : State} (h : Reaches s t) :
    t.mem.length = s.mem.length ∧ t.cfg = s.cfg := by
  refine reaches_induction (P := fun u => u.mem.length = s.mem.length ∧ u.cfg = s.cfg) h ⟨rfl, rfl⟩ ?_
  intro u v ⟨hlen, hcfg⟩ hstep
  obtain ⟨hlen', hcfg'⟩ := step_keeps_length_cfg hstep
  exact ⟨hlen'.trans hlen, hcfg'.trans hcfg⟩

theorem inBounds_false_iff (m : Memory) (a : Int) : inBounds m a = false ↔ a < 0 ∨ (m.length : Int) ≤ a := by
  rw [← Bool.not_eq_true, inBounds_iff]
  omega

/-- Settles O25: the length and the parameters by induction over the run, the accesses outside Memory by the
characterisation of when a checked access is an error. -/
theorem memoryLengthAndParametersAreFixed : Obligations.MemoryLengthAndParametersAreFixed := by
  refine ⟨fun s t h => reaches_keeps_length_cfg h, fun m a v hout => ?_⟩
  have hb : inBounds m a = false := (inBounds_false_iff m a).mpr hout
  exact ⟨(memWrite_error_iff ..).mpr ⟨hb, rfl⟩, (memRead_error_iff ..).mpr ⟨hb, rfl⟩⟩

end Sys2Proof.Machine
end

section
/-! PROOFS. A read answers a word exactly on the valid addresses (R31), and a write replaces one whole cell (R37). -/

namespace Sys2Proof.Machine

/-- Settles O1: a read on a valid address answers a word, which is the word of its cell, and a read elsewhere is the
one error a checked read has. -/
theorem readsSucceedExactlyOnValidAddresses : Obligations.ReadsSucceedExactlyOnValidAddresses := by
  refine fun m a => ⟨fun hin => ?_, fun hout => ?_⟩
  · obtain ⟨w, hw⟩ := memRead_ok_of_inBounds m a ((inBounds_iff m a).mpr hin)
    exact ⟨w, ((memRead_ok_iff m a w).mp hw).2, hw⟩
  · exact (memRead_error_iff ..).mpr ⟨(inBounds_false_iff m a).mpr hout, rfl⟩

/-- The cell written reads the exact value. -/
theorem memRead_memWrite_same {m m' : Memory} {a : Int} {v : Word} (h : memWrite m a v = .ok m') :
    memRead m' a = .ok v := by
  obtain ⟨hin, rfl⟩ := (memWrite_ok_iff ..).mp h
  obtain ⟨hnonneg, hlt⟩ := (inBounds_iff m a).mp hin
  exact (memRead_ok_iff ..).mpr ⟨hnonneg, List.getElem?_set_self (by omega)⟩

/-- Every other address, valid or not, reads as before the write. A negative address is no cell: only for the others do
different addresses mean different cells. -/
theorem memRead_memWrite_of_ne {m m' : Memory} {a b : Int} {v : Word} (h : memWrite m a v = .ok m') (hne : b ≠ a) :
    memRead m' b = memRead m b := by
  obtain ⟨hin, rfl⟩ := (memWrite_ok_iff ..).mp h
  have hnonneg : 0 ≤ a := ((inBounds_iff m a).mp hin).1
  unfold memRead
  split
  · rfl
  · rw [List.getElem?_set_ne (by omega)]

/-- Settles O2: the write answers a Memory exactly on a valid address; that Memory has the same length and is read by
the two cases of a read after a write. -/
theorem writeReplacesOneCell : Obligations.WriteReplacesOneCell := by
  refine fun m a v => ⟨fun hin => ?_, fun hout => ?_⟩
  · have hw : memWrite m a v = .ok (m.set a.toNat v) := (memWrite_ok_iff ..).mpr ⟨(inBounds_iff m a).mpr hin, rfl⟩
    exact ⟨_, hw, memRead_memWrite_same hw, memWrite_length hw, fun _ hne => memRead_memWrite_of_ne hw hne⟩
  · exact (memWrite_error_iff ..).mpr ⟨(inBounds_false_iff m a).mpr hout, rfl⟩

end Sys2Proof.Machine
end

section
/-! PROOFS. The Operation Registry is a fixed mapping with three entries (R53). -/

namespace Sys2Proof

/-- Settles O3: the three rows are looked up by their opcode words, and a word that differs from all three is in no row. -/
theorem registryIsFixedMapping : Obligations.RegistryIsFixedMapping := by
  refine ⟨rfl, fun w => ?_⟩
  split_ifs with h1 h2 h99
  · exact h1 ▸ lookup_one
  · exact h2 ▸ lookup_two
  · exact h99 ▸ lookup_ninetyNine
  · exact lookup_eq_none w h1 h2 h99

end Sys2Proof
end

section
/-! PROOFS. The step of the loop: the halt test comes before any execution (R75), and the machine agrees with the direct
evaluator (R81). -/

namespace Sys2Proof.Machine

/-- The step at a fetched instruction is its execution (R72). -/
theorem step_of_fetched {s : State} {i : Instr} (hrun : s.run = .running) (hfetch : fetch s = .instruction i) :
    step s = exec i s := by
  simp [step_of_running hrun, stepRunning, hfetch]

theorem fetch_of_decoded {s : State} {i : Instr} {rest : List Word} (h : decode (s.mem.drop s.ip) = .instr i rest) :
    fetch s = .instruction i := by
  simp [fetch, h]

/-- Settles O16: the fetch of 99 reads no word after it, and the execution of HLT is the halt; every other decoded
instruction is fetched and executed. -/
theorem haltTestPrecedesExecution : Obligations.HaltTestPrecedesExecution := by
  refine fun s hrun => ⟨fun h99 => ?_, fun i rest hdecode _ => ?_⟩
  · rw [step_of_fetched hrun (fetch_hlt s h99), exec_hlt, halt]
  · exact step_of_fetched hrun (fetch_of_decoded hdecode)

/-! The two evaluators read, write and test the range in the same way. -/

theorem refRead_eq_memRead (m : Memory) (a : Int) : refRead m a = memRead m a := by
  unfold refRead
  split
  · next hout => exact ((memRead_error_iff ..).mpr ⟨(inBounds_false_iff m a).mpr hout, rfl⟩).symm
  · next hin =>
    have hlt : a.toNat < m.length := by omega
    exact ((memRead_ok_iff ..).mpr ⟨by omega, by simp [hlt]⟩).symm

theorem refWrite_eq_memWrite (m : Memory) (a : Int) (v : Word) : refWrite m a v = memWrite m a v := by
  unfold refWrite
  split
  · next hout => exact ((memWrite_error_iff ..).mpr ⟨(inBounds_false_iff m a).mpr hout, rfl⟩).symm
  · next hin =>
    have hset : m.take a.toNat ++ v :: m.drop (a.toNat + 1) = m.set a.toNat v := by
      rw [List.set_eq_take_append_cons_drop, if_pos (by omega)]
    exact ((memWrite_ok_iff ..).mpr ⟨(inBounds_iff m a).mpr (by omega), hset⟩).symm

theorem refOverflows_eq_not_representable (x : XLen) (v : Int) : refOverflows x v = !representable x v := by
  cases x with
  | inf => rfl
  | bits n =>
    rw [Bool.eq_not_iff, ne_eq, Bool.eq_iff_iff, representable_bits_iff]
    simp only [refOverflows, Bool.or_eq_true, decide_eq_true_eq]
    omega

/-- The word at `ip + k`, as an ADD or MUL reads its parameter `k` (R91). -/
theorem refRead_parameter {s : State} {k : Nat} {w : Word} (h : s.mem[s.ip + k]? = some w) :
    refRead s.mem ((s.ip : Int) + k) = .ok w := by
  rw [refRead_eq_memRead, ← Int.natCast_add, memRead_natCast, h]

/-- With its three parameter words read, the pseudocode of R85 and R86 is the chain of checks of R87. -/
theorem refExec_eq_arithmeticResult {f : Int → Int → Int} {s : State} {a1 a2 a3 : Word}
    (h1 : s.mem[s.ip + 1]? = some a1) (h2 : s.mem[s.ip + 2]? = some a2) (h3 : s.mem[s.ip + 3]? = some a3) :
    refExec f s = arithmeticResult f a1 a2 a3 s := by
  have p1 : refRead s.mem ((s.ip : Int) + 1) = .ok a1 := refRead_parameter h1
  have p2 : refRead s.mem ((s.ip : Int) + 2) = .ok a2 := refRead_parameter h2
  have p3 : refRead s.mem ((s.ip : Int) + 3) = .ok a3 := refRead_parameter h3
  have hout : (a3 < 0 ∨ a3 ≥ (s.mem.length : Int)) ↔ ¬ inBounds s.mem a3 = true := by
    rw [Bool.not_eq_true]; exact (inBounds_false_iff s.mem a3).symm
  unfold refExec arithmeticResult sourceOperand checkAddress exactResult
  simp only [p1, p2, p3, refRead_eq_memRead, refWrite_eq_memWrite, refOverflows_eq_not_representable, hout,
    bind, Except.bind, throw, throwThe, MonadExceptOf.throw]
  cases memRead s.mem a1 with
  | error c => rfl
  | ok v1 =>
    cases memRead s.mem a2 with
    | error c => rfl
    | ok v2 =>
      by_cases hin : inBounds s.mem a3 = true
      · by_cases hrep : representable s.cfg.xlen (f v1 v2) = true <;> simp [hin, hrep]
      · simp [hin]

/-- With a parameter word missing, the pseudocode faults at the first address past the end of Memory (R59, R87). -/
theorem refExec_of_missing_parameter (f : Int → Int → Int) {s : State} (hin : s.ip < s.mem.length)
    (hend : s.mem.length < s.ip + 4) : refExec f s = .error (.outOfBoundsAccess (s.mem.length : Int)) := by
  have present : ∀ k : Int, 0 ≤ k → s.ip + k < s.mem.length → ∃ w, refRead s.mem (s.ip + k) = .ok w := by
    intro k hk hlt
    rw [refRead_eq_memRead]
    exact memRead_ok_of_inBounds _ _ ((inBounds_iff ..).mpr ⟨by omega, hlt⟩)
  have missing : ∀ k : Int, s.mem.length = s.ip + k →
      refRead s.mem (s.ip + k) = .error (.outOfBoundsAccess s.mem.length) := by
    intro k hk
    rw [refRead_eq_memRead, ← hk]
    exact (memRead_error_iff ..).mpr ⟨(inBounds_false_iff ..).mpr (.inr le_rfl), rfl⟩
  unfold refExec
  by_cases hlen1 : s.mem.length = s.ip + 1
  · rw [missing 1 (by omega)]; rfl
  obtain ⟨a1, h1⟩ := present 1 (by omega) (by omega)
  rw [h1]
  by_cases hlen2 : s.mem.length = s.ip + 2
  · rw [missing 2 (by omega)]; rfl
  obtain ⟨a2, h2⟩ := present 2 (by omega) (by omega)
  rw [h2, missing 3 (by omega)]; rfl

/-! The step of the direct evaluator, one equation per branch of the pseudocode of R72. -/

theorem refStep_of_not_running {s : State} (h : s.run ≠ .running) : refStep s = none := by
  simp [refStep, h]

theorem refStep_of_end {s : State} (hrun : s.run = .running) (hend : s.mem.length ≤ s.ip) :
    refStep s = some (raise (.truncated s.ip) s) := by
  simp [refStep, hrun, hend, raise]

theorem unknownOpcode_eq_ite (w : Word) (s : State) :
    unknownOpcode w s = if s.cfg.unknownOpcodePolicy = .halt then halt s else raise (.unknownOpcode w) s := by
  cases hpolicy : s.cfg.unknownOpcodePolicy with
  | fault => exact unknownOpcode_of_fault w s hpolicy
  | halt => exact unknownOpcode_of_halt w s hpolicy

/-- Inside Memory the outcome is chosen by the opcode word. -/
theorem refStep_of_opcode {s : State} {w : Word} (hrun : s.run = .running) (hw : s.mem[s.ip]? = some w) :
    refStep s = some (
      if w = 99 then halt s
      else if w = 1 then refFinish s (refExec (fun x y => x + y) s)
      else if w = 2 then refFinish s (refExec (fun x y => x * y) s)
      else unknownOpcode w s) := by
  have hlt : s.ip < s.mem.length := (List.getElem?_eq_some_iff.mp hw).1
  have hopcode : s.mem.getD s.ip 0 = w := by rw [List.getD_eq_getElem?_getD, hw]; rfl
  rw [refStep, if_neg (by simp [hrun]), if_neg (by omega), hopcode, unknownOpcode_eq_ite]
  simp only [apply_ite some]
  rfl

theorem refStep_of_one {s : State} (hrun : s.run = .running) (hop : s.mem[s.ip]? = some 1) :
    refStep s = some (refFinish s (refExec (fun x y => x + y) s)) :=
  refStep_of_opcode hrun hop

theorem refStep_of_two {s : State} (hrun : s.run = .running) (hop : s.mem[s.ip]? = some 2) :
    refStep s = some (refFinish s (refExec (fun x y => x * y) s)) :=
  refStep_of_opcode hrun hop

/-! The machine's step and the evaluator's step, by what the machine fetches. -/

/-- ADD and MUL answer the state that the evaluator's advance or raise gives (R76, R110). -/
theorem arithmetic_eq_refFinish (f : Int → Int → Int) (a1 a2 a3 : Word) (s : State) :
    arithmetic f 4 a1 a2 a3 s = .next (refFinish s (arithmeticResult f a1 a2 a3 s)) := by
  unfold arithmetic
  cases arithmeticResult f a1 a2 a3 s <;> rfl

theorem refStep_of_instruction {s : State} {i : Instr} (hrun : s.run = .running) (hfetch : fetch s = .instruction i) :
    ∃ t, exec i s = .next t ∧ refStep s = some t := by
  rcases fetch_instruction_cases hfetch with ⟨rfl, h99⟩ | ⟨a1, a2, a3, h1, h2, h3, ⟨rfl, hop⟩ | ⟨rfl, hop⟩⟩
  · exact ⟨_, exec_hlt s, refStep_of_opcode hrun h99⟩
  · refine ⟨_, (exec_add ..).trans (arithmetic_eq_refFinish ..), ?_⟩
    rw [refStep_of_one hrun hop, refExec_eq_arithmeticResult h1 h2 h3]
  · refine ⟨_, (exec_mul ..).trans (arithmetic_eq_refFinish ..), ?_⟩
    rw [refStep_of_two hrun hop, refExec_eq_arithmeticResult h1 h2 h3]

theorem refStep_of_unknown {s : State} {w : Word} (hrun : s.run = .running) (hfetch : fetch s = .unknown w) :
    refStep s = some (unknownOpcode w s) := by
  obtain ⟨hw, h1, h2, h99⟩ := fetch_unknown_cases hfetch
  rw [refStep_of_opcode hrun hw, if_neg h99, if_neg h1, if_neg h2]

theorem refStep_of_raised {s : State} {c : FaultCause} (hrun : s.run = .running) (hfetch : fetch s = .raised c) :
    refStep s = some (raise c s) := by
  rcases fetch_raised_cases hfetch with ⟨hend, rfl⟩ | ⟨hop, hend, rfl⟩
  · exact refStep_of_end hrun hend
  · rcases hop with hop | hop
    · rw [refStep_of_one hrun hop, refExec_of_missing_parameter _ (List.getElem?_eq_some_iff.mp hop).1 hend]
      rfl
    · rw [refStep_of_two hrun hop, refExec_of_missing_parameter _ (List.getElem?_eq_some_iff.mp hop).1 hend]
      rfl

/-- Outside RUNNING the machine has no next state (R71). -/
theorem step_ne_next_of_not_running {s : State} (h : s.run ≠ .running) (t : State) : step s ≠ .next t :=
  fun hstep => h (step_next_cases hstep).1

/-- In RUNNING both have a step, and to the same state. -/
theorem step_refStep_of_running {s : State} (hrun : s.run = .running) : ∃ t, step s = .next t ∧ refStep s = some t := by
  cases hfetch : fetch s with
  | instruction i => rw [step_of_fetched hrun hfetch]; exact refStep_of_instruction hrun hfetch
  | unknown w => exact ⟨_, by simp [step_of_running hrun, stepRunning, hfetch], refStep_of_unknown hrun hfetch⟩
  | raised c => exact ⟨_, by simp [step_of_running hrun, stepRunning, hfetch], refStep_of_raised hrun hfetch⟩

theorem step_next_iff_refStep (s t : State) : step s = .next t ↔ refStep s = some t := by
  by_cases hrun : s.run = .running
  · obtain ⟨u, hstep, href⟩ := step_refStep_of_running hrun
    simp [hstep, href]
  · simp [step_ne_next_of_not_running hrun, refStep_of_not_running hrun]

/-- One agreeing step at a time, two runs of the same length agree. -/
theorem runSteps_eq_refSteps (k : Nat) (s : State) : runSteps k s = refSteps k s := by
  induction k generalizing s with
  | zero => rfl
  | succ k ih =>
    by_cases hrun : s.run = .running
    · obtain ⟨t, hstep, href⟩ := step_refStep_of_running hrun
      rw [runSteps_succ_of_next k hstep, ih t, refSteps, href]
    · rw [runSteps_of_terminal _ hrun, refSteps, refStep_of_not_running hrun]

/-- Settles O24: the two agree on one step, by what is fetched, and so on any number of steps. -/
theorem stepAgreesWithDirectEvaluation : Obligations.StepAgreesWithDirectEvaluation :=
  ⟨step_next_iff_refStep, runSteps_eq_refSteps⟩

end Sys2Proof.Machine
end

section
/-! PROOFS. A step at the opcode word of ADD or MUL is the pseudocode of R85 or R86. The step is that of the direct
evaluator, whose chain of checks is run here one clause at a time in the order of R87. -/

namespace Sys2Proof.Machine

/-! At the word 1 or 2 the step is the evaluator's execution and advance (R72). -/

theorem step_of_one {s : State} (hrun : s.run = .running) (hop : s.mem[s.ip]? = some 1) :
    step s = .next (refFinish s (refExec (fun x y => x + y) s)) :=
  (step_next_iff_refStep ..).mpr (refStep_of_one hrun hop)

theorem step_of_two {s : State} (hrun : s.run = .running) (hop : s.mem[s.ip]? = some 2) :
    step s = .next (refFinish s (refExec (fun x y => x * y) s)) :=
  (step_next_iff_refStep ..).mpr (refStep_of_two hrun hop)

/-! The result of ADD and MUL, one equation per failing check of R87. -/

section
variable {f : Int → Int → Int} {a1 a2 a3 v1 v2 : Word} {s : State} {c : FaultCause}

theorem arithmeticResult_of_first_error (h1 : memRead s.mem a1 = .error c) :
    arithmeticResult f a1 a2 a3 s = .error c := by
  simp [arithmeticResult, sourceOperand, h1, bind, Except.bind]

theorem arithmeticResult_of_second_error (h1 : memRead s.mem a1 = .ok v1) (h2 : memRead s.mem a2 = .error c) :
    arithmeticResult f a1 a2 a3 s = .error c := by
  simp [arithmeticResult, sourceOperand, h1, h2, bind, Except.bind]

theorem arithmeticResult_of_invalid_destination (h1 : memRead s.mem a1 = .ok v1) (h2 : memRead s.mem a2 = .ok v2)
    (h3 : inBounds s.mem a3 = false) : arithmeticResult f a1 a2 a3 s = .error (.outOfBoundsAccess a3) := by
  simp [arithmeticResult, sourceOperand, checkAddress, h1, h2, h3, bind, Except.bind]

theorem arithmeticResult_of_overflow (h1 : memRead s.mem a1 = .ok v1) (h2 : memRead s.mem a2 = .ok v2)
    (h3 : inBounds s.mem a3 = true) (hover : representable s.cfg.xlen (f v1 v2) = false) :
    arithmeticResult f a1 a2 a3 s = .error .arithmeticOverflow := by
  simp [arithmeticResult, sourceOperand, checkAddress, exactResult, h1, h2, h3, hover, bind, Except.bind]

end

/-- A step that ends as the evaluator's does obeys the rule clause by clause: the first missing parameter word, then, with
all three read, each failing check of R87 and the completion. -/
theorem arithmeticStepRule_of_step {f : Int → Int → Int} {s : State} (hin : s.ip < s.mem.length)
    (hstep : step s = .next (refFinish s (refExec f s))) : ArithmeticStepRule f s := by
  refine ⟨fun k hk hk3 hlen => ?_, fun a1 a2 a3 p1 p2 p3 => ?_⟩
  · rw [hstep, refExec_of_missing_parameter f hin (by omega), hlen]
    rfl
  · rw [refExec_eq_arithmeticResult p1 p2 p3] at hstep
    refine ⟨fun h1 => ?_, fun v1 h1 h2 => ?_, fun v1 v2 h1 h2 => ?_⟩
    · rw [hstep, arithmeticResult_of_first_error h1]
      rfl
    · rw [hstep, arithmeticResult_of_second_error h1 h2]
      rfl
    · refine ⟨fun hout => ?_, fun hnonneg hlt => ?_⟩
      · rw [hstep, arithmeticResult_of_invalid_destination h1 h2 ((inBounds_false_iff ..).mpr hout)]
        rfl
      · have h3 : inBounds s.mem a3 = true := (inBounds_iff ..).mpr ⟨hnonneg, hlt⟩
        refine ⟨fun hover => ?_, fun hrep => ?_⟩
        · rw [hstep, arithmeticResult_of_overflow h1 h2 h3 hover]
          rfl
        · rw [hstep, (arithmeticResult_ok_iff ..).mpr ⟨v1, v2, h1, h2, h3, hrep, rfl⟩]
          rfl

/-- Settles O14: at the word 1 the step is the evaluator's ADD; the worked example is evaluated. -/
theorem addStepFollowsItsPseudocode : Obligations.AddStepFollowsItsPseudocode :=
  ⟨fun _ hrun hop => arithmeticStepRule_of_step (List.getElem?_eq_some_iff.mp hop).1 (step_of_one hrun hop), rfl⟩

/-- Settles O15: at the word 2 the step is the evaluator's MUL; the worked example is evaluated. -/
theorem mulStepFollowsItsPseudocode : Obligations.MulStepFollowsItsPseudocode :=
  ⟨fun _ hrun hop => arithmeticStepRule_of_step (List.getElem?_eq_some_iff.mp hop).1 (step_of_two hrun hop), rfl⟩

end Sys2Proof.Machine
end

section
/-! PROOFS. The scan order of Parameter Search is row-major over all pairs of parameters (R151). -/

namespace Sys2Proof.Machine

/-- The row-major index: when all rows have length `m`, entry `m * n + v` of the rows one after the other is entry `v` of
row `n`. -/
theorem getElem?_flatMap_of_rows {α β : Type} {m v : Nat} {row : α → List β} (hrow : ∀ a, (row a).length = m)
    (hv : v < m) (as : List α) (n : Nat) :
    (as.flatMap row)[m * n + v]? = as[n]?.bind (fun a => (row a)[v]?) := by
  induction as generalizing n with
  | nil => simp
  | cons a as ih =>
    rw [List.flatMap_cons]
    cases n with
    | zero => simp [List.getElem?_append_left, hrow, hv]
    | succ n =>
      have hskip : m * (n + 1) + v - m = m * n + v := by rw [Nat.mul_succ]; omega
      rw [List.getElem?_append_right (by rw [hrow, Nat.mul_succ]; omega), hrow, hskip, ih,
        List.getElem?_cons_succ]

/-- As many rows as nouns, each as long as there are verbs. -/
theorem scanOrder_length : scanOrder.length = Config.paramRange * Config.paramRange := by
  simp [scanOrder, List.length_flatMap]

theorem scanOrder_getElem? {n v : Nat} (hn : n < Config.paramRange) (hv : v < Config.paramRange) :
    scanOrder[Config.paramRange * n + v]? = some (n, v) := by
  rw [scanOrder, getElem?_flatMap_of_rows (by simp) hv]
  simp [hn, hv]

/-- Settles O39: the length is counted row by row, and each entry is found in its row. -/
theorem scanOrderIsRowMajor : Obligations.ScanOrderIsRowMajor :=
  ⟨scanOrder_length, fun _ _ => scanOrder_getElem?⟩

end Sys2Proof.Machine
end

section
/-! PROOFS. Decoding and encoding agree on sequences of words (R50 to R59), an instruction is read back from its bits, and
a step runs what it decodes (R72). -/

namespace Sys2Proof

theorem decode_encode_append (i : Instr) (rest : List Word) : decode (encode i ++ rest) = .instr i rest := by
  cases i <;> rfl

/-- Each known opcode word gives the instruction of its row, whose words are the ones decoded. -/
theorem eq_encode_append_of_decode {ws rest : List Word} {i : Instr} (h : decode ws = .instr i rest) :
    ws = encode i ++ rest := by
  cases ws with
  | nil => simp [decode] at h
  | cons w ws =>
    by_cases h1 : w = 1
    · rw [h1, decode_one] at h
      obtain ⟨a1, a2, a3, rfl, rfl⟩ := (decodeParams_instr_iff ..).mp h
      rw [h1]; rfl
    by_cases h2 : w = 2
    · rw [h2, decode_two] at h
      obtain ⟨a1, a2, a3, rfl, rfl⟩ := (decodeParams_instr_iff ..).mp h
      rw [h2]; rfl
    by_cases h99 : w = 99
    · rw [h99, decode_ninetyNine] at h
      obtain ⟨rfl, rfl⟩ := Decoded.instr.inj h
      rw [h99]; rfl
    · simp [decode_unknown w ws h1 h2 h99] at h

/-- Settles O5: an encoding decodes to its instruction, and what decodes begins with the encoding. -/
theorem decodeInvertsEncode : Obligations.DecodeInvertsEncode := by
  refine fun ws rest i => ⟨eq_encode_append_of_decode, ?_⟩
  rintro rfl
  exact decode_encode_append i rest

/-- Words that decode still do so with other words after them. -/
theorem decode_append {ws rest : List Word} {i : Instr} (h : decode ws = .instr i rest) (more : List Word) :
    decode (ws ++ more) = .instr i (rest ++ more) := by
  rw [eq_encode_append_of_decode h, List.append_assoc, decode_encode_append]

/-- An ADD or MUL is rejected exactly for a missing parameter word. -/
theorem decode_addMul_rejected_iff {w : Word} (hw : w = 1 ∨ w = 2) (rest : List Word) (r : Reject) :
    decode (w :: rest) = .rejected r ↔ rest.length < 3 ∧ r = .missingParameter (rest.length + 1) := by
  rcases hw with rfl | rfl
  · rw [decode_one, decodeParams_rejected_iff]
  · rw [decode_two, decodeParams_rejected_iff]

/-- Settles O6: the three alternatives are the empty sequence, an unknown opcode word and a known one; HLT needs no
parameter word and is never rejected. -/
theorem rejectionNamesItsReason : Obligations.RejectionNamesItsReason := by
  intro ws r
  cases ws with
  | nil => simp [decode, eq_comm (a := r)]
  | cons w rest =>
    by_cases hw : w = 1 ∨ w = 2
    · rw [decode_addMul_rejected_iff hw]
      rcases hw with rfl | rfl <;> simp
    · obtain ⟨h1, h2⟩ := not_or.mp hw
      by_cases h99 : w = 99
      · subst h99
        simp [decode_ninetyNine]
      · simp [decode_unknown w rest h1 h2 h99, h1, h2, h99, eq_comm (a := r)]

/-- Settles O4: the five sequences are evaluated. -/
theorem specWordsDecode : Obligations.SpecWordsDecode := by
  unfold Obligations.SpecWordsDecode
  decide

/-! The layout of words in bits (log entry 5): 64 bits a word, the first word lowest. -/

/-- The group of 64 bits of a word is its two's complement, and so reads back a 64-bit word (R7). -/
theorem toInt_ofInt_of_representable {v : Word} (h : Machine.representable (.bits 64) v = true) :
    (BitVec.ofInt tableWordBits v).toInt = v := by
  rw [Machine.representable_bits_iff] at h
  obtain ⟨hlow, hhigh⟩ := h
  exact BitVec.toInt_ofInt_eq_self (by decide) hlow (by simp only [tableWordBits]; omega)

theorem numberOfWords_lt (ws : List Word) : numberOfWords ws < 2 ^ (tableWordBits * ws.length) := by
  induction ws with
  | nil => simp [numberOfWords]
  | cons v ws ih =>
    have hv := (BitVec.ofInt tableWordBits v).isLt
    rw [numberOfWords, List.length_cons, Nat.mul_succ, Nat.add_comm (tableWordBits * _), Nat.pow_add]
    calc _ < 2 ^ tableWordBits + 2 ^ tableWordBits * numberOfWords ws := by omega
      _ = 2 ^ tableWordBits * (numberOfWords ws + 1) := by ring
      _ ≤ _ := Nat.mul_le_mul_left _ ih

theorem tableWord_cons_zero (v : Word) (ws : List Word) :
    tableWord (numberOfWords (v :: ws)) 0 = (BitVec.ofInt tableWordBits v).toInt := by
  have hv : BitVec.ofNat tableWordBits (numberOfWords (v :: ws)) = BitVec.ofInt tableWordBits v := by
    apply BitVec.eq_of_toNat_eq
    rw [BitVec.toNat_ofNat, numberOfWords, Nat.add_mul_mod_self_left, Nat.mod_eq_of_lt (BitVec.isLt _)]
  simp [tableWord, hv]

theorem tableWord_cons_succ (v : Word) (ws : List Word) (k : Nat) :
    tableWord (numberOfWords (v :: ws)) (k + 1) = tableWord (numberOfWords ws) k := by
  have hshift : numberOfWords (v :: ws) >>> tableWordBits = numberOfWords ws := by
    rw [numberOfWords, Nat.shiftRight_eq_div_pow, Nat.add_mul_div_left _ _ (Nat.two_pow_pos _),
      Nat.div_eq_of_lt (BitVec.ofInt tableWordBits v).isLt, Nat.zero_add]
  rw [tableWord, tableWord, Nat.mul_succ, Nat.add_comm, Nat.shiftRight_add, hshift]

/-- Every word of a number of words is read back at its place. -/
theorem tableWord_numberOfWords {ws : List Word} (h : ∀ v ∈ ws, Machine.representable (.bits 64) v = true)
    {k : Nat} (hk : k < ws.length) : tableWord (numberOfWords ws) k = ws[k] := by
  induction ws generalizing k with
  | nil => simp at hk
  | cons v ws ih =>
    cases k with
    | zero => rw [tableWord_cons_zero]; exact toInt_ofInt_of_representable (h v List.mem_cons_self)
    | succ k =>
      rw [tableWord_cons_succ, ih (fun u hu => h u (List.mem_cons_of_mem v hu)) (by simpa using hk)]
      rfl

/-- The four words read from a number of at most four words begin with those words. -/
theorem tableWords_numberOfWords {ws : List Word} (h : ∀ v ∈ ws, Machine.representable (.bits 64) v = true)
    (hlen : ws.length ≤ 4) :
    ws <+: tableWords (tableWordBits * ws.length) (numberOfWords ws) := by
  refine List.prefix_iff_eq_take.mpr (List.ext_getElem (by simp [tableWords, hlen]) fun k hk _ => ?_)
  simp [tableWords, Nat.mod_eq_of_lt (numberOfWords_lt ws), tableWord_numberOfWords h hk]

theorem encode_length_le (i : Instr) : (encode i).length ≤ 4 := by
  cases i <;> simp [encode]

/-- The words of a well-formed instruction are words: its parameter words by hypothesis, the opcode word as it is small. -/
theorem encode_representable {i : Instr} (h : i.wellFormed (.bits 64) = true) :
    ∀ v ∈ encode i, Machine.representable (.bits 64) v = true := by
  have small : ∀ v : Word, 0 ≤ v → v < 100 → Machine.representable (.bits 64) v = true :=
    fun v => Machine.representable_of_small (by decide)
  have hparams : ∀ v ∈ i.params, Machine.representable (.bits 64) v = true := List.all_eq_true.mp h
  cases i with
  | add a1 a2 a3 => exact List.forall_mem_cons.mpr ⟨small 1 (by decide) (by decide), hparams⟩
  | mul a1 a2 a3 => exact List.forall_mem_cons.mpr ⟨small 2 (by decide) (by decide), hparams⟩
  | hlt => exact List.forall_mem_cons.mpr ⟨small 99 (by decide) (by decide), hparams⟩

/-- Settles O7: the number of an instruction's words is read back as those words, and they decode to the instruction. -/
theorem tableWordsReadBackEveryInstruction : Obligations.TableWordsReadBackEveryInstruction := by
  intro i hwf
  obtain ⟨rest, hwords⟩ := tableWords_numberOfWords (encode_representable hwf) (encode_length_le i)
  simp only [encodeTableWord, decodeTableWord, ← hwords, decode_encode_append]

end Sys2Proof

namespace Sys2Proof.Machine

/-- Settles O8: what decodes at `ip` is what the step fetches. -/
theorem stepRunsTheDecodedInstruction : Obligations.StepRunsTheDecodedInstruction :=
  fun _ _ _ hrun hdecode => step_of_fetched hrun (fetch_of_decoded hdecode)

/-- The words placed at an address stand there, with what follows them in Memory. -/
theorem drop_placeWords (ws : List Word) (start : Nat) (m : Memory) :
    (placeWords ws start m).drop start = ws ++ m.drop (start + ws.length) := by
  have hlen : (m.take start ++ List.replicate (start - m.length) 0).length = start := by
    simp; omega
  rw [placeWords, List.append_assoc _ ws, List.drop_left' hlen]

theorem decode_of_decodeTableWord {nbits w : Nat} {i : Instr} (h : decodeTableWord nbits w = some i) :
    ∃ rest, decode (tableWords nbits w) = .instr i rest := by
  unfold decodeTableWord at h
  split at h
  · next j rest hj =>
    obtain rfl := Option.some.inj h
    exact ⟨rest, hj⟩
  · simp at h

/-- Settles O9: the placed words stand at `ip`, and the words after them do not change what is decoded. -/
theorem placedInstructionRunsNext : Obligations.PlacedInstructionRunsNext := by
  intro s nbits w i h
  obtain ⟨rest, hdecode⟩ := decode_of_decodeTableWord h
  refine step_of_fetched rfl (fetch_of_decoded (rest := rest ++ s.mem.drop (s.ip + (tableWords nbits w).length)) ?_)
  exact (congrArg decode (drop_placeWords ..)).trans (decode_append hdecode _)

end Sys2Proof.Machine
end

section
/-! PROOFS. What executing ADD, MUL and HLT does and leaves unchanged (R85 to R95). -/

namespace Sys2Proof.Machine

/-- With every check of R87 passed, an arithmetic instruction replaces one cell and advances (R76). -/
theorem arithmetic_completes {f : Int → Int → Int} {n : Nat} {a1 a2 a3 v1 v2 : Word} {s : State}
    (h1 : memRead s.mem a1 = .ok v1) (h2 : memRead s.mem a2 = .ok v2) (h3 : inBounds s.mem a3 = true)
    (hrep : representable s.cfg.xlen (f v1 v2) = true) :
    arithmetic f n a1 a2 a3 s = .next (advance n (withMem (s.mem.set a3.toNat (f v1 v2)) s)) :=
  (arithmetic_next_iff ..).mpr (.inl ⟨_, (arithmeticResult_ok_iff ..).mpr ⟨v1, v2, h1, h2, h3, hrep, rfl⟩, rfl⟩)

/-- Settles O10: the completion of an arithmetic instruction, for the sum. -/
theorem addCompletes : Obligations.AddCompletes :=
  fun _ _ _ _ _ _ h1 h2 hnonneg hlt hrep => arithmetic_completes h1 h2 ((inBounds_iff ..).mpr ⟨hnonneg, hlt⟩) hrep

/-- Settles O11: the completion of an arithmetic instruction, for the product. -/
theorem mulCompletes : Obligations.MulCompletes :=
  fun _ _ _ _ _ _ h1 h2 hnonneg hlt hrep => arithmetic_completes h1 h2 ((inBounds_iff ..).mpr ⟨hnonneg, hlt⟩) hrep

/-- Settles O12: the halt of HLT is the change of `run`. -/
theorem hltCompletes : Obligations.HltCompletes := exec_hlt

/-- Settles O13: HLT answers the halted state, whose other components are those of the state before. -/
theorem hltFrame : Obligations.HltFrame := by
  intro s t h
  obtain rfl : halt s = t := by simpa [exec_hlt] using h
  exact ⟨fun _ => rfl, rfl, rfl, rfl, rfl, rfl⟩

/-- The frame of an arithmetic instruction, completed or faulted (R92, R110, R111). -/
theorem arithmetic_frame {f : Int → Int → Int} {n : Nat} {a1 a2 a3 : Word} {s t : State}
    (h : arithmetic f n a1 a2 a3 s = .next t) :
    (∀ a : Int, a ≠ a3 → memRead t.mem a = memRead s.mem a) ∧
    ((t.run = s.run ∧ t.fault = s.fault ∧ t.ip = s.ip + n ∧
        ∃ v1 v2, memRead s.mem a1 = .ok v1 ∧ memRead s.mem a2 = .ok v2 ∧ memRead t.mem a3 = .ok (f v1 v2)) ∨
      (t.run = .faulted ∧ t.fault ≠ none ∧ t.ip = s.ip ∧ ∀ a : Int, memRead t.mem a = memRead s.mem a)) := by
  rcases (arithmetic_next_iff ..).mp h with ⟨m, hm, rfl⟩ | ⟨c, _, rfl⟩
  · obtain ⟨v1, v2, h1, h2, h3, _, rfl⟩ := (arithmeticResult_ok_iff ..).mp hm
    have hwrite := (memWrite_ok_iff s.mem a3 (f v1 v2) _).mpr ⟨h3, rfl⟩
    exact ⟨fun _ hne => memRead_memWrite_of_ne hwrite hne,
      .inl ⟨rfl, rfl, rfl, v1, v2, h1, h2, memRead_memWrite_same hwrite⟩⟩
  · exact ⟨fun _ _ => rfl, .inr ⟨rfl, by simp, rfl, fun _ => rfl⟩⟩

/-- Settles O21: ADD and MUL are arithmetic instructions of size 4, and the frame of those is theirs. -/
theorem addAndMulFrame : Obligations.AddAndMulFrame := by
  intro s t i a1 a2 a3 f hi h
  obtain ⟨hlen, hcfg⟩ := exec_keeps_length_cfg h
  refine ⟨hcfg, hlen, ?_⟩
  rcases hi with ⟨rfl, rfl⟩ | ⟨rfl, rfl⟩
  · rw [exec_add] at h
    exact arithmetic_frame h
  · rw [exec_mul] at h
    exact arithmetic_frame h

/-! The order of the two sources (R89). -/

theorem memRead_error_of_not_inBounds {m : Memory} {a : Int} (h : inBounds m a = false) :
    memRead m a = .error (.outOfBoundsAccess a) :=
  (memRead_error_iff ..).mpr ⟨h, rfl⟩

/-- With the first source valid, the second is the only one that can be reported, in either order of the two. -/
theorem arithmeticResult_swap_of_first_valid {f : Int → Int → Int} (hf : ∀ x y, f x y = f y x) {a1 a2 : Word}
    (a3 : Word) {s : State} (hvalid : inBounds s.mem a1 = true) :
    arithmeticResult f a1 a2 a3 s = arithmeticResult f a2 a1 a3 s := by
  obtain ⟨v1, h1⟩ := memRead_ok_of_inBounds _ _ hvalid
  cases h2 : memRead s.mem a2 with
  | error c => rw [arithmeticResult_of_second_error h1 h2, arithmeticResult_of_first_error h2]
  | ok v2 => simp [arithmeticResult, sourceOperand, h1, h2, hf v1 v2, bind, Except.bind]

theorem arithmetic_swap {f : Int → Int → Int} (hf : ∀ x y, f x y = f y x) {n : Nat} {a1 a2 a3 : Word} {s : State}
    (hvalid : inBounds s.mem a1 = true ∨ inBounds s.mem a2 = true) :
    arithmetic f n a1 a2 a3 s = arithmetic f n a2 a1 a3 s := by
  have hresult : arithmeticResult f a1 a2 a3 s = arithmeticResult f a2 a1 a3 s :=
    hvalid.elim (arithmeticResult_swap_of_first_valid hf a3)
      (fun h => (arithmeticResult_swap_of_first_valid hf a3 h).symm)
  rw [arithmetic, arithmetic, hresult]

theorem arithmetic_of_first_invalid (f : Int → Int → Int) (n : Nat) {a1 : Word} (a2 a3 : Word) {s : State}
    (h : inBounds s.mem a1 = false) :
    arithmetic f n a1 a2 a3 s = .next (raise (.outOfBoundsAccess a1) s) :=
  (arithmetic_next_iff ..).mpr (.inr ⟨_, arithmeticResult_of_first_error (memRead_error_of_not_inBounds h), rfl⟩)

/-- Settles O22: sum and product are commutative and one invalid source is reported in either order; of two invalid
ones the first is read first. -/
theorem sourcesCommute : Obligations.SourcesCommute := by
  refine fun s a1 a2 a3 => ⟨fun hvalid => ⟨?_, ?_⟩, fun h1 _ => ⟨?_, ?_⟩⟩
  · rw [exec_add, exec_add, arithmetic_swap Int.add_comm hvalid]
  · rw [exec_mul, exec_mul, arithmetic_swap Int.mul_comm hvalid]
  · exact arithmetic_of_first_invalid _ _ a2 a3 h1
  · exact arithmetic_of_first_invalid _ _ a2 a3 h1

end Sys2Proof.Machine
end

section
/-! PROOFS. The effect of a step, said once: it halts, faults for a cause, or completes an ADD or MUL (R72). What every step
keeps, and when it faults, is read off these three effects. -/

namespace Sys2Proof.Machine

/-- Why a step from this state may fault (R100 to R104), as the state before it shows. -/
def FaultCause.RaisedAt (s : State) : FaultCause → Prop
  | .outOfBoundsAccess a => inBounds s.mem a = false
  | .truncated p => p = s.ip ∧ s.mem.length ≤ s.ip
  | .unknownOpcode w =>
    s.mem[s.ip]? = some w ∧ w ≠ 1 ∧ w ≠ 2 ∧ w ≠ 99 ∧ s.cfg.unknownOpcodePolicy = .fault
  | .arithmeticOverflow => s.cfg.xlen ≠ .inf

/-- The word that halts a machine: 99, or an unknown opcode under the policy `halt` (R95, R96). -/
def HaltsOn (s : State) (w : Word) : Prop :=
  w = 99 ∨ (w ≠ 1 ∧ w ≠ 2 ∧ s.cfg.unknownOpcodePolicy = .halt)

/-- The operation of an arithmetic opcode word (R85, R86). -/
def ArithmeticOpcode (w : Word) (f : Int → Int → Int) : Prop :=
  (w = 1 ∧ f = fun v1 v2 => v1 + v2) ∨ (w = 2 ∧ f = fun v1 v2 => v1 * v2)

/-- The states a step can lead to, each with what was found at `ip`. -/
inductive StepEffect (s : State) : State → Prop
  | halts {w : Word} (hword : s.mem[s.ip]? = some w) (hhalt : HaltsOn s w) : StepEffect s (halt s)
  | faults {c : FaultCause} (hcause : c.RaisedAt s) : StepEffect s (raise c s)
  | completes {w a1 a2 a3 : Word} {f : Int → Int → Int} {m : Memory}
      (hword : s.mem[s.ip]? = some w) (hop : ArithmeticOpcode w f)
      (h1 : s.mem[s.ip + 1]? = some a1) (h2 : s.mem[s.ip + 2]? = some a2) (h3 : s.mem[s.ip + 3]? = some a3)
      (hresult : arithmeticResult f a1 a2 a3 s = .ok m) : StepEffect s (advance 4 (withMem m s))

theorem arithmeticResult_error_raisedAt {f : Int → Int → Int} {a1 a2 a3 : Word} {s : State} {c : FaultCause}
    (h : arithmeticResult f a1 a2 a3 s = .error c) : c.RaisedAt s := by
  rcases arithmeticResult_error_cases h with ⟨h1, rfl⟩ | ⟨_, h2, rfl⟩ | ⟨_, _, h3, rfl⟩ | ⟨v1, v2, _, _, _, hover, rfl⟩
  · exact h1
  · exact h2
  · exact h3
  · intro hinf
    simp [hinf, representable_inf] at hover

/-- An ADD or MUL whose words stand at `ip` completes or faults. -/
theorem stepEffect_of_arithmetic {w a1 a2 a3 : Word} {f : Int → Int → Int} {s t : State}
    (hword : s.mem[s.ip]? = some w) (hop : ArithmeticOpcode w f)
    (h1 : s.mem[s.ip + 1]? = some a1) (h2 : s.mem[s.ip + 2]? = some a2) (h3 : s.mem[s.ip + 3]? = some a3)
    (h : arithmetic f 4 a1 a2 a3 s = .next t) : StepEffect s t := by
  rcases (arithmetic_next_iff ..).mp h with ⟨m, hm, rfl⟩ | ⟨c, hc, rfl⟩
  · exact .completes hword hop h1 h2 h3 hm
  · exact .faults (arithmeticResult_error_raisedAt hc)

theorem stepEffect_of_exec {i : Instr} {s t : State} (hfetch : fetch s = .instruction i) (h : exec i s = .next t) :
    StepEffect s t := by
  rcases fetch_instruction_cases hfetch with ⟨rfl, h99⟩ | ⟨a1, a2, a3, h1, h2, h3, ⟨rfl, hop⟩ | ⟨rfl, hop⟩⟩
  · obtain rfl : halt s = t := by simpa [exec_hlt] using h
    exact .halts h99 (.inl rfl)
  · exact stepEffect_of_arithmetic hop (.inl ⟨rfl, rfl⟩) h1 h2 h3 (exec_add a1 a2 a3 s ▸ h)
  · exact stepEffect_of_arithmetic hop (.inr ⟨rfl, rfl⟩) h1 h2 h3 (exec_mul a1 a2 a3 s ▸ h)

theorem stepEffect_of_unknown {w : Word} {s : State} (hfetch : fetch s = .unknown w) :
    StepEffect s (unknownOpcode w s) := by
  obtain ⟨hword, hne1, hne2, hne99⟩ := fetch_unknown_cases hfetch
  cases hpolicy : s.cfg.unknownOpcodePolicy with
  | fault =>
    rw [unknownOpcode_of_fault w s hpolicy]
    exact .faults ⟨hword, hne1, hne2, hne99, hpolicy⟩
  | halt =>
    rw [unknownOpcode_of_halt w s hpolicy]
    exact .halts hword (.inr ⟨hne1, hne2, hpolicy⟩)

theorem raisedAt_of_fetch {c : FaultCause} {s : State} (hfetch : fetch s = .raised c) : c.RaisedAt s := by
  rcases fetch_raised_cases hfetch with ⟨hend, rfl⟩ | ⟨_, _, rfl⟩
  · exact ⟨rfl, hend⟩
  · exact (inBounds_false_iff ..).mpr (.inr le_rfl)

theorem stepEffect_of_step {s t : State} (h : step s = .next t) : StepEffect s t := by
  obtain ⟨_, ⟨i, hfetch, hexec⟩ | ⟨w, hfetch, rfl⟩ | ⟨c, hfetch, rfl⟩⟩ := step_next_cases h
  · exact stepEffect_of_exec hfetch hexec
  · exact stepEffect_of_unknown hfetch
  · exact .faults (raisedAt_of_fetch hfetch)

/-- In RUNNING a step exists (R71). -/
theorem step_of_running_exists {s : State} (hrun : s.run = .running) : ∃ t, step s = .next t := by
  obtain ⟨t, hstep, _⟩ := step_refStep_of_running hrun
  exact ⟨t, hstep⟩

/-! The invariant, by the three effects. -/

/-- In RUNNING with nothing recorded, the invariant is what it says of the parameters, Memory and `ip`. -/
theorem inv_of_running {s : State} (hrun : s.run = .running) (hfault : s.fault = none)
    (hxlen : xlenAdmitted s.cfg.xlen = true) (hcapacity : fitsCapacity s.cfg s.mem.length = true)
    (hwf : Memory.wf s.cfg.xlen s.mem = true) (hip : s.ip ≤ s.mem.length) (hip4 : s.ip % 4 = 0) : s.Inv where
  xlenAdmitted := hxlen
  capacity := hcapacity
  memWf := hwf
  ipInMemory := hip
  ipMultipleOfFour := hip4
  faultRecorded := by simp [hfault, hrun]
  haltedOnHalt := by simp [hrun]
  faultTrue := by simp [hfault]

section
variable {s : State} (hinv : s.Inv)
include hinv

/-- A precise fault (R110): what the state before it shows is still true of the state that records it. -/
theorem FaultCause.RaisedAt.trueOf_raise {c : FaultCause} (h : c.RaisedAt s) : c.TrueOf (raise c s) := by
  cases c with
  | outOfBoundsAccess a => exact (inBounds_false_iff ..).mp h
  | truncated p => exact ⟨h.1, le_antisymm hinv.ipInMemory h.2⟩
  | unknownOpcode w => exact h
  | arithmeticOverflow => exact h

theorem inv_raise {c : FaultCause} (h : c.RaisedAt s) : (raise c s).Inv where
  xlenAdmitted := hinv.xlenAdmitted
  capacity := hinv.capacity
  memWf := hinv.memWf
  ipInMemory := hinv.ipInMemory
  ipMultipleOfFour := hinv.ipMultipleOfFour
  faultRecorded := by simp
  haltedOnHalt := by simp
  faultTrue := by
    intro d hd
    obtain rfl : c = d := by simpa using hd
    exact h.trueOf_raise hinv

theorem fault_none_of_running (hrun : s.run = .running) : s.fault = none :=
  hinv.faultRecorded.mpr (by simp [hrun])

theorem inv_halt (hrun : s.run = .running) {w : Word} (hword : s.mem[s.ip]? = some w) (hhalt : HaltsOn s w) :
    (halt s).Inv where
  xlenAdmitted := hinv.xlenAdmitted
  capacity := hinv.capacity
  memWf := hinv.memWf
  ipInMemory := hinv.ipInMemory
  ipMultipleOfFour := hinv.ipMultipleOfFour
  faultRecorded := by simp [fault_none_of_running hinv hrun]
  haltedOnHalt := fun _ => ⟨w, hword, hhalt⟩
  faultTrue := by simp [fault_none_of_running hinv hrun]

/-- A completed ADD or MUL writes a representable result, and its last parameter word stands inside Memory, so that `ip`
advances at most to the end. -/
theorem inv_advance (hrun : s.run = .running) {a1 a2 a3 : Word} {f : Int → Int → Int} {m : Memory}
    (h3 : s.mem[s.ip + 3]? = some a3) (hresult : arithmeticResult f a1 a2 a3 s = .ok m) :
    (advance 4 (withMem m s)).Inv := by
  have hlen := arithmeticResult_length hresult
  have hlt := (List.getElem?_eq_some_iff.mp h3).1
  have hfault : s.fault = none := fault_none_of_running hinv hrun
  refine inv_of_running hrun hfault hinv.xlenAdmitted ?_ ?_ ?_ ?_
  · simpa [hlen] using hinv.capacity
  · obtain ⟨v1, v2, _, _, _, hrep, rfl⟩ := (arithmeticResult_ok_iff ..).mp hresult
    exact wf_set _ hinv.memWf hrep
  · simp only [advance_ip, advance_mem, withMem_ip, withMem_mem, hlen]
    omega
  · simpa using hinv.ipMultipleOfFour

end

/-- Settles O31: each of the three effects of a step keeps the invariant. -/
theorem stepKeepsTheInvariant : Obligations.StepKeepsTheInvariant := by
  intro s t hinv hstep
  have hrun : s.run = .running := (step_next_cases hstep).1
  cases stepEffect_of_step hstep with
  | halts hword hhalt => exact inv_halt hinv hrun hword hhalt
  | faults hcause => exact inv_raise hinv hcause
  | completes _ _ _ _ h3 hresult => exact inv_advance hinv hrun h3 hresult

/-! The end of Memory, unknown opcodes and precise faults. -/

/-- Settles O20: of the three effects only the fault ends FAULTED, and it changes `run` and the record alone. -/
theorem faultsArePrecise : Obligations.FaultsArePrecise := by
  intro s t hstep hfaulted
  have hrun : s.run = .running := (step_next_cases hstep).1
  cases stepEffect_of_step hstep with
  | halts => simp at hfaulted
  | faults => exact ⟨_, rfl⟩
  | completes => simp [hrun] at hfaulted

/-- A step that ends FAULTED with a cause had that cause. -/
theorem raisedAt_of_step_faulted {s t : State} {c : FaultCause} (hstep : step s = .next t) (hfaulted : t.run = .faulted)
    (hfault : t.fault = some c) : c.RaisedAt s := by
  have hrun : s.run = .running := (step_next_cases hstep).1
  cases stepEffect_of_step hstep with
  | halts => simp at hfaulted
  | faults hcause =>
    obtain rfl := Option.some.inj hfault
    exact hcause
  | completes => simp [hrun] at hfaulted

theorem step_of_end {s : State} (hrun : s.run = .running) (hend : s.mem.length ≤ s.ip) :
    step s = .next (raise (.truncated s.ip) s) :=
  (step_next_iff_refStep ..).mpr (refStep_of_end hrun hend)

/-- Settles O18: `Truncated` has no other cause than the end of Memory, and there the fetch raises it. -/
theorem truncatedExactlyAtTheEndOfMemory : Obligations.TruncatedExactlyAtTheEndOfMemory := by
  refine fun s hrun p => ⟨?_, ?_⟩
  · rintro ⟨t, hstep, hfaulted, hfault⟩
    obtain ⟨hp, hend⟩ := raisedAt_of_step_faulted hstep hfaulted hfault
    exact ⟨hend, hp⟩
  · rintro ⟨hend, rfl⟩
    exact ⟨_, step_of_end hrun hend, rfl, rfl⟩

/-- Settles O17: the fetched word is in no row of the Registry, and the policy chooses the fault or the halt. -/
theorem unknownOpcodeFollowsThePolicy : Obligations.UnknownOpcodeFollowsThePolicy := by
  intro s w hrun hword h1 h2 h99
  have hstep : step s = .next (unknownOpcode w s) :=
    (step_next_iff_refStep ..).mpr (refStep_of_unknown hrun (fetch_unknown s w hword h1 h2 h99))
  refine ⟨fun hpolicy => ?_, fun hpolicy => ?_⟩
  · rw [hstep, unknownOpcode_of_fault w s hpolicy]
    rfl
  · rw [hstep, unknownOpcode_of_halt w s hpolicy]
    rfl

/-- Settles O19: a step exists only in RUNNING, and there always; the two terminal states name their stop. -/
theorem stepExistsExactlyInRunning : Obligations.StepExistsExactlyInRunning := by
  refine fun s => ⟨⟨fun ⟨t, hstep⟩ => (step_next_cases hstep).1, step_of_running_exists⟩, fun h => ?_, fun h => ?_⟩
  · rw [step, stepOnce, h]
  · rw [step, stepOnce, h]

/-! Completed steps. -/

/-- An ADD or MUL in RUNNING with its words inside Memory and every check of R87 passed completes. -/
theorem step_completes {s : State} {w a1 a2 a3 v1 v2 : Word} {f : Int → Int → Int} (hrun : s.run = .running)
    (hword : s.mem[s.ip]? = some w) (hop : ArithmeticOpcode w f)
    (p1 : s.mem[s.ip + 1]? = some a1) (p2 : s.mem[s.ip + 2]? = some a2) (p3 : s.mem[s.ip + 3]? = some a3)
    (h1 : memRead s.mem a1 = .ok v1) (h2 : memRead s.mem a2 = .ok v2) (h3 : inBounds s.mem a3 = true)
    (hrep : representable s.cfg.xlen (f v1 v2) = true) :
    step s = .next (advance 4 (withMem (s.mem.set a3.toNat (f v1 v2)) s)) := by
  have hfinish : refFinish s (refExec f s) = advance 4 (withMem (s.mem.set a3.toNat (f v1 v2)) s) := by
    rw [refExec_eq_arithmeticResult p1 p2 p3, (arithmeticResult_ok_iff ..).mpr ⟨v1, v2, h1, h2, h3, hrep, rfl⟩]
    rfl
  rcases hop with ⟨rfl, rfl⟩ | ⟨rfl, rfl⟩
  · rw [step_of_one hrun hword, hfinish]
  · rw [step_of_two hrun hword, hfinish]

theorem step_of_ninetyNine {s : State} (hrun : s.run = .running) (hword : s.mem[s.ip]? = some 99) :
    step s = .next (halt s) :=
  (step_next_iff_refStep ..).mpr (refStep_of_opcode hrun hword)

/-- Settles O23: the first step completes with 99 at `ip + 4`, where the second step fetches it (R45). -/
theorem plantedHaltIsFetchedNext : Obligations.PlantedHaltIsFetchedNext := by
  intro s a1 a2 v1 v2 hrun p1 p2 p3 hnext h1 h2 hrep hop
  have h3 : inBounds s.mem ((s.ip + 4 : Nat) : Int) = true := (inBounds_iff ..).mpr ⟨by omega, by omega⟩
  have hfirst : step s = .next (advance 4 (withMem (s.mem.set (s.ip + 4) 99) s)) := by
    rcases hop with ⟨hword, h99⟩ | ⟨hword, h99⟩
    · rw [← h99] at hrep ⊢
      exact step_completes hrun hword (.inl ⟨rfl, rfl⟩) p1 p2 p3 h1 h2 h3 hrep
    · rw [← h99] at hrep ⊢
      exact step_completes hrun hword (.inr ⟨rfl, rfl⟩) p1 p2 p3 h1 h2 h3 hrep
  have hsecond := step_of_ninetyNine (s := advance 4 (withMem (s.mem.set (s.ip + 4) 99) s)) hrun
    (List.getElem?_set_self hnext)
  rw [runSteps_succ_of_next 1 hfirst, runSteps_succ_of_next 0 hsecond]
  rfl

end Sys2Proof.Machine
end

section
/-! PROOFS. Whole runs: where they fetch, that they end (R78, R80), what is reached from a terminal state (R27), and what a
finite width and the program conditions mean for them (R88, R136). -/

namespace Sys2Proof.Machine

/-! A machine that stays RUNNING has completed an ADD or MUL at each step. -/

/-- Control flow is a straight line (R80), and the four words of a completed instruction stand inside Memory. -/
theorem step_running_ip {s t : State} (hstep : step s = .next t) (hrun : t.run = .running) :
    t.ip = s.ip + 4 ∧ s.ip + 4 ≤ s.mem.length := by
  cases stepEffect_of_step hstep with
  | halts => simp at hrun
  | faults => simp at hrun
  | completes _ _ _ _ h3 _ => exact ⟨rfl, (List.getElem?_eq_some_iff.mp h3).1⟩

theorem runSteps_running_ip {k : Nat} {s : State} (h : (runSteps k s).run = .running) :
    (runSteps k s).ip = s.ip + 4 * k ∧ (0 < k → s.ip + 4 * k ≤ s.mem.length) := by
  induction k generalizing s with
  | zero => exact ⟨rfl, by omega⟩
  | succ k ih =>
    by_cases hrun : s.run = .running
    · obtain ⟨t, hstep⟩ := step_of_running_exists hrun
      rw [runSteps_succ_of_next k hstep] at h ⊢
      obtain ⟨hip, hin⟩ := ih h
      have hlen : t.mem.length = s.mem.length := (step_keeps_length_cfg hstep).1
      have ht : t.run = .running := by
        by_contra hterminal
        rw [runSteps_of_terminal k hterminal] at h
        exact hterminal h
      obtain ⟨hnext, hwords⟩ := step_running_ip hstep ht
      omega
    · rw [runSteps_of_terminal _ hrun] at h
      exact absurd h hrun

/-- Settles O26: by induction on the number of steps, each of which advances by the size of ADD and MUL. -/
theorem fetchAddressesAreAStraightLine : Obligations.FetchAddressesAreAStraightLine :=
  fun _ _ h => (runSteps_running_ip h).1

/-- Settles O27: a machine still RUNNING after that many steps would have fetched past the end of Memory. -/
theorem everyRunEndsWithinItsBound : Obligations.EveryRunEndsWithinItsBound := by
  refine fun s _ => ⟨fun hrun => ?_, runSteps_reaches _ s⟩
  have hin := (runSteps_running_ip hrun).2 (Nat.succ_pos _)
  omega

/-- Settles O28: a state that is not RUNNING has no step to leave it by. -/
theorem terminalStatesAreFrozen : Obligations.TerminalStatesAreFrozen := by
  refine fun s t hterminal hreach => reaches_induction (P := fun u => u = s) hreach rfl ?_
  rintro _ v rfl hstep
  exact absurd hstep (step_ne_next_of_not_running hterminal v)

/-- Settles O36: the first step is the halt of the word 99, and nothing happens after it. -/
theorem haltFirstImageIsUnchanged : Obligations.HaltFirstImageIsUnchanged := by
  intro s hrun hip hword
  have hstep : step s = .next (halt s) := step_of_ninetyNine hrun (by rw [hip, hword])
  rw [runToEnd, stepBound, runSteps_succ_of_next _ hstep, runSteps_of_terminal _ (by simp)]
  rfl

/-! A run at a finite width that does not fault is the unbounded run (R88). -/

theorem step_of_haltsOn {s : State} {w : Word} (hrun : s.run = .running) (hword : s.mem[s.ip]? = some w)
    (hhalt : HaltsOn s w) : step s = .next (halt s) := by
  by_cases h99 : w = 99
  · exact step_of_ninetyNine hrun (h99 ▸ hword)
  · obtain ⟨h1, h2, hpolicy⟩ := hhalt.resolve_left h99
    exact (unknownOpcodeFollowsThePolicy s w hrun hword h1 h2 h99).2 hpolicy

/-- A step that does not fault reads the width only to find its result representable, which at `XLEN = inf` all are. -/
theorem step_unbounded {s t : State} (hstep : step s = .next t) (hok : t.run ≠ .faulted) :
    step (unbounded s) = .next (unbounded t) := by
  have hrun : s.run = .running := (step_next_cases hstep).1
  cases stepEffect_of_step hstep with
  | halts hword hhalt => exact step_of_haltsOn (s := unbounded s) hrun hword hhalt
  | faults => simp at hok
  | completes hword hop p1 p2 p3 hresult =>
    obtain ⟨v1, v2, h1, h2, h3, _, rfl⟩ := (arithmeticResult_ok_iff ..).mp hresult
    exact step_completes (s := unbounded s) hrun hword hop p1 p2 p3 h1 h2 h3 (representable_inf _)

/-- Settles O37: step by step, since a run that does not end FAULTED passes through no faulted state. -/
theorem finiteWidthRefinesUnbounded : Obligations.FiniteWidthRefinesUnbounded := by
  intro k s hok
  induction k generalizing s with
  | zero => rfl
  | succ k ih =>
    by_cases hrun : s.run = .running
    · obtain ⟨t, hstep⟩ := step_of_running_exists hrun
      rw [runSteps_succ_of_next k hstep] at hok ⊢
      have ht : t.run ≠ .faulted := by
        intro hfaulted
        rw [runSteps_of_terminal k (by simp [hfaulted])] at hok
        exact hok hfaulted
      rw [runSteps_succ_of_next k (step_unbounded hstep ht), ih t hok]
    · rw [runSteps_of_terminal _ hrun, runSteps_of_terminal _ (s := unbounded s) hrun]

/-! The end of a run is the one terminal state it reaches. -/

theorem runSteps_add (k j : Nat) (s : State) : runSteps (k + j) s = runSteps j (runSteps k s) := by
  induction k generalizing s with
  | zero => rw [Nat.zero_add, runSteps_zero]
  | succ k ih =>
    by_cases hrun : s.run = .running
    · obtain ⟨t, hstep⟩ := step_of_running_exists hrun
      rw [Nat.succ_add, runSteps_succ_of_next _ hstep, runSteps_succ_of_next _ hstep, ih]
    · rw [runSteps_of_terminal _ hrun, runSteps_of_terminal _ hrun, runSteps_of_terminal _ hrun]

theorem exists_runSteps_of_reaches {s t : State} (h : Reaches s t) : ∃ k, runSteps k s = t := by
  induction h with
  | refl => exact ⟨0, rfl⟩
  | tail t u _ hstep ih =>
    obtain ⟨k, rfl⟩ := ih
    exact ⟨k + 1, by rw [runSteps_add, runSteps_succ_of_next 0 hstep, runSteps_zero]⟩

/-- Steps are deterministic, so that two terminal states reached from one state are the same. -/
theorem terminal_reached_unique {s t u : State} (ht : Reaches s t) (hu : Reaches s u) (htt : t.run ≠ .running)
    (hut : u.run ≠ .running) : t = u := by
  obtain ⟨k, rfl⟩ := exists_runSteps_of_reaches ht
  obtain ⟨j, rfl⟩ := exists_runSteps_of_reaches hu
  calc runSteps k s = runSteps (k + j) s := by rw [runSteps_add, runSteps_of_terminal j htt]
    _ = runSteps j s := by rw [Nat.add_comm, runSteps_add, runSteps_of_terminal k hut]

theorem runToEnd_reaches (s : State) : Reaches s (runToEnd s) := runSteps_reaches _ s

/-- From any state, since a terminal one is its own end (R27, R78). -/
theorem runToEnd_terminal (s : State) : (runToEnd s).run ≠ .running := by
  by_cases hrun : s.run = .running
  · exact (everyRunEndsWithinItsBound s hrun).1
  · rwa [runToEnd, runSteps_of_terminal _ hrun]

/-! The program conditions (R136). -/

theorem arithmeticOpcode_iff (w : Word) (f : Int → Int → Int) : ArithmeticOpcode w f ↔
    (w = 1 ∨ w = 2) ∧ f = fun v1 v2 => if w = 1 then v1 + v2 else v1 * v2 := by
  constructor
  · rintro (⟨rfl, rfl⟩ | ⟨rfl, rfl⟩) <;> simp
  · rintro ⟨rfl | rfl, rfl⟩ <;> simp [ArithmeticOpcode]

/-- The conditions (a) to (d) are exactly what keeps a step from faulting under the policy `fault`. -/
theorem stepOk_iff_not_faulted {s t : State} (hpolicy : s.cfg.unknownOpcodePolicy = .fault) (hstep : step s = .next t) :
    StepOk s ↔ t.run ≠ .faulted := by
  have hrun : s.run = .running := (step_next_cases hstep).1
  constructor
  · rintro (h99 | ⟨w, a1, a2, a3, v1, v2, hword, hw, p1, p2, p3, h1, hv1, h2, hv2, h3, h3', hrep⟩)
    · obtain rfl : halt s = t := by simpa [step_of_ninetyNine hrun h99] using hstep
      simp
    · have hdone := step_completes hrun hword ((arithmeticOpcode_iff ..).mpr ⟨hw, rfl⟩) p1 p2 p3
        ((memRead_ok_iff ..).mpr ⟨h1, hv1⟩) ((memRead_ok_iff ..).mpr ⟨h2, hv2⟩) ((inBounds_iff ..).mpr ⟨h3, h3'⟩) hrep
      obtain rfl := Host.Outcome.next.inj (hdone.symm.trans hstep)
      simp [hrun]
  · intro hok
    cases stepEffect_of_step hstep with
    | halts hword hhalt =>
      obtain rfl | ⟨_, _, hhalting⟩ := hhalt
      · exact .inl hword
      · simp [hpolicy] at hhalting
    | faults => simp at hok
    | @completes w a1 a2 a3 f m hword hop p1 p2 p3 hresult =>
      obtain ⟨hw, rfl⟩ := (arithmeticOpcode_iff ..).mp hop
      obtain ⟨v1, v2, h1, h2, h3, hrep, _⟩ := (arithmeticResult_ok_iff ..).mp hresult
      obtain ⟨h1, hv1⟩ := (memRead_ok_iff ..).mp h1
      obtain ⟨h2, hv2⟩ := (memRead_ok_iff ..).mp h2
      obtain ⟨h3, h3'⟩ := (inBounds_iff ..).mp h3
      exact .inr ⟨w, a1, a2, a3, v1, v2, hword, hw, p1, p2, p3, h1, hv1, h2, hv2, h3, h3', hrep⟩

/-- Settles O38: a step from a reached state is in the conditions exactly when it does not fault, and a fault would be the
end of the run. -/
theorem runHaltsExactlyUnderTheProgramConditions : Obligations.RunHaltsExactlyUnderTheProgramConditions := by
  intro s hrun hpolicy
  have policy : ∀ t, Reaches s t → t.cfg.unknownOpcodePolicy = .fault := by
    intro t hreach
    rw [(reaches_keeps_length_cfg hreach).2, hpolicy]
  constructor
  · intro hhalted t hreach ht
    obtain ⟨u, hstep⟩ := step_of_running_exists ht
    refine (stepOk_iff_not_faulted (policy t hreach) hstep).mpr fun hfaulted => ?_
    have hend : runToEnd s = u := terminal_reached_unique (runToEnd_reaches s) (.tail s t u hreach hstep)
      (runToEnd_terminal s) (by simp [hfaulted])
    simp [hend, hfaulted] at hhalted
  · intro hok
    have hreached : ∀ t, Reaches s t → t.run ≠ .faulted := by
      intro t hreach
      cases hreach with
      | refl => simp [hrun]
      | tail u _ hreach hstep =>
        exact (stepOk_iff_not_faulted (policy u hreach) hstep).mp (hok u hreach (step_next_cases hstep).1)
    have hnotRunning := runToEnd_terminal s
    have hnotFaulted := hreached _ (runToEnd_reaches s)
    cases hend : (runToEnd s).run with
    | running => exact absurd hend hnotRunning
    | halted => rfl
    | faulted => exact absurd hend hnotFaulted

end Sys2Proof.Machine
end

section
/-! PROOFS. Reset: when it is refused, what it gives and that the invariant holds after it (R130 to R135); and what the host
reads of a machine (R143 to R145). -/

namespace Sys2Proof.Machine

/-! When a reset is refused. -/

theorem xlenAdmitted_false_iff (x : XLen) : xlenAdmitted x = false ↔ ∃ n, x = .bits n ∧ n < 8 := by
  cases x with
  | inf => simp [xlenAdmitted]
  | bits n => simp [← Bool.not_eq_true, xlenAdmitted_bits_iff]

theorem fitsCapacity_false_iff (c : Config) (len : Nat) :
    fitsCapacity c len = false ↔ ∃ n, c.memMax = some n ∧ n < len := by
  unfold fitsCapacity
  cases c.memMax <;> simp

theorem wf_false_iff (x : XLen) (m : Memory) : Memory.wf x m = false ↔ ∃ w ∈ m, representable x w = false := by
  simp [← Bool.not_eq_true, wf_iff]

/-- Both parameters of the launch lie in 0 to 99 (R133). -/
theorem parameters_inRange_iff (l : Launch) : (inParamRange l.noun = true ∧ inParamRange l.verb = true) ↔
    0 ≤ l.noun ∧ l.noun < 100 ∧ 0 ≤ l.verb ∧ l.verb < 100 := by
  rw [inParamRange_iff, inParamRange_iff, and_assoc]

theorem resetFrom_refused_exists_iff (l : Launch) : (∃ r, resetFrom l = .refused r) ↔ launchRefusal l ≠ none := by
  simp only [resetFrom_refused_iff, Option.ne_none_iff_exists']

/-- Settles O35: a reset is refused when one of the four conditions of an admitted launch fails. -/
theorem resetIsRefusedExactlyWhenNotAdmitted : Obligations.ResetIsRefusedExactlyWhenNotAdmitted := by
  intro l
  rw [resetFrom_refused_exists_iff, ne_eq, launchRefusal_none_iff, parameters_inRange_iff, ← xlenAdmitted_false_iff,
    ← fitsCapacity_false_iff, ← wf_false_iff]
  simp only [not_and_or, Bool.not_eq_true, Classical.not_imp]

/-! The procedure of an admitted reset. -/

section
variable {l : Launch} (hxlen : xlenAdmitted l.cfg.xlen = true) (hcapacity : fitsCapacity l.cfg l.image.length = true)
  (hwf : Memory.wf l.cfg.xlen l.image = true)
include hxlen hcapacity hwf

theorem resetFrom_of_bad_parameters (henable : l.cfgEnable = true)
    (hbad : ¬ (0 ≤ l.noun ∧ l.noun < 100 ∧ 0 ≤ l.verb ∧ l.verb < 100)) :
    resetFrom l = .refused .parametersOutOfRange := by
  have hrange : (inParamRange l.noun && inParamRange l.verb) = false := by
    rwa [← Bool.not_eq_true, Bool.and_eq_true, parameters_inRange_iff]
  rw [resetFrom_refused_iff]
  simp [launchRefusal, hxlen, hcapacity, hwf, henable, hrange]

theorem resetFrom_of_not_enabled (henable : l.cfgEnable = false) : resetFrom l = .next (copyImage l) := by
  rw [resetFrom_next_iff, launchRefusal_none_iff]
  simp [hxlen, hcapacity, hwf, henable]

theorem resetFrom_of_enabled (henable : l.cfgEnable = true)
    (hrange : 0 ≤ l.noun ∧ l.noun < 100 ∧ 0 ≤ l.verb ∧ l.verb < 100) :
    resetFrom l = .next (configure l.noun l.verb (copyImage l)) := by
  rw [resetFrom_next_iff, launchRefusal_none_iff, parameters_inRange_iff]
  simp [hxlen, hcapacity, hwf, henable, hrange]

end

/-- Settles O34: the refusal, the plain copy, and the three cases of the configuration write. -/
theorem resetFollowsItsProcedure : Obligations.ResetFollowsItsProcedure := by
  intro l hxlen hcapacity hwf
  refine ⟨fun ⟨henable, hbad⟩ => resetFrom_of_bad_parameters hxlen hcapacity hwf henable hbad,
    resetFrom_of_not_enabled hxlen hcapacity hwf, fun henable hn hn' hv hv' => ?_⟩
  rw [resetFrom_of_enabled hxlen hcapacity hwf henable ⟨hn, hn', hv, hv'⟩]
  have hmem : (copyImage l).mem = l.image := rfl
  rcases configure_cases l.noun l.verb (copyImage l) with ⟨hlen, hcfg⟩ | ⟨hlen, hcfg⟩ | ⟨hlen, hcfg⟩ <;>
    rw [hcfg] <;> rw [hmem] at hlen
  · exact ⟨fun _ => rfl, by omega, by omega⟩
  · exact ⟨by omega, fun _ => rfl, by omega⟩
  · refine ⟨by omega, by omega, fun _ => ⟨_, rfl, by simp [hmem], ?_, ?_, fun k h1 h2 => ?_⟩⟩
    · rw [hmem, List.getElem?_set_ne (by decide), List.getElem?_set_self (by omega)]
    · rw [List.getElem?_set_self (by simp [hmem]; omega)]
    · rw [hmem, List.getElem?_set_ne h2.symm, List.getElem?_set_ne h1.symm]

/-! The invariant after a reset. -/

theorem inv_copyImage {l : Launch} (h : launchRefusal l = none) : (copyImage l).Inv := by
  obtain ⟨hxlen, hcapacity, hwf, _⟩ := (launchRefusal_none_iff l).mp h
  exact inv_of_running rfl rfl hxlen hcapacity hwf (Nat.zero_le _) rfl

/-- The configuration write of admitted parameters keeps the invariant of the copy, also where it faults (R114). -/
theorem inv_configure {s : State} (hinv : s.Inv) (hrun : s.run = .running) {noun verb : Int}
    (hnoun : inParamRange noun = true) (hverb : inParamRange verb = true) : (configure noun verb s).Inv := by
  have param_representable : ∀ v, inParamRange v = true → representable s.cfg.xlen v = true := by
    intro v hv
    obtain ⟨h0, h100⟩ := (inParamRange_iff v).mp hv
    exact representable_of_small hinv.xlenAdmitted h0 h100
  rcases configure_cases noun verb s with ⟨hlen, hcfg⟩ | ⟨hlen, hcfg⟩ | ⟨hlen, hcfg⟩ <;> rw [hcfg]
  · exact inv_raise hinv ((inBounds_false_iff ..).mpr (.inr (by omega)))
  · exact inv_raise hinv ((inBounds_false_iff ..).mpr (.inr (by omega)))
  · have hfault : s.fault = none := fault_none_of_running hinv hrun
    refine inv_of_running hrun hfault hinv.xlenAdmitted ?_ ?_ ?_ hinv.ipMultipleOfFour
    · simpa using hinv.capacity
    · exact wf_set 2 (wf_set 1 hinv.memWf (param_representable _ hnoun)) (param_representable _ hverb)
    · simpa using hinv.ipInMemory

/-- Settles O30: the copy of an admitted image meets the invariant, and configuring it keeps it. -/
theorem everyResetMeetsTheInvariant : Obligations.EveryResetMeetsTheInvariant := by
  intro l s h
  obtain ⟨hadmitted, rfl⟩ := (resetFrom_next_iff l s).mp h
  split
  · next henable =>
    obtain ⟨_, _, _, hparams⟩ := (launchRefusal_none_iff l).mp hadmitted
    obtain ⟨hnoun, hverb⟩ := hparams henable
    exact inv_configure (inv_copyImage hadmitted) rfl hnoun hverb
  · exact inv_copyImage hadmitted

/-- Settles O29: `State.reset` is the reset of the empty image with the default parameters (log entry 4). -/
theorem resetStateMeetsTheInvariant : Obligations.ResetStateMeetsTheInvariant :=
  everyResetMeetsTheInvariant { cfg := Config.default, image := [], cfgEnable := false, noun := 0, verb := 0 } _ rfl

/-! What the host reads. -/

/-- Settles O32: the word that halted the machine stands in Memory, which is therefore not empty. -/
theorem haltedMachineHasAnOutput : Obligations.HaltedMachineHasAnOutput := by
  intro s hinv hhalted
  obtain ⟨w, hword, _⟩ := hinv.haltedOnHalt hhalted
  have hlt : s.ip < s.mem.length := (List.getElem?_eq_some_iff.mp hword).1
  have hzero : s.mem[0]? = some s.mem[0] := List.getElem?_eq_getElem (by omega)
  exact ⟨s.mem[0], hzero, (out_of_halted hhalted).trans hzero⟩

theorem outValid_iff (s : State) : outValid s = true ↔ s.run = .halted := by
  simp [outValid]

theorem terminal_iff (s : State) : terminal s = true ↔ s.run ≠ .running := by
  simp [terminal]

theorem terminal_false_iff (s : State) : terminal s = false ↔ s.run = .running := by
  simp [terminal]

/-- Settles O33: each read is guarded by the test of the run state that it names. -/
theorem hostReadsOnlyInTerminalStates : Obligations.HostReadsOnlyInTerminalStates := by
  refine fun s => ⟨outValid_iff s, out_of_not_halted, fun hrun => ?_, fun hrun => ?_⟩
  · simp [readBackIp, readBack, (terminal_false_iff s).mpr hrun]
  · simp [readBackIp, readBack, (terminal_iff s).mpr hrun]

end Sys2Proof.Machine
end

section
/-! PROOFS. Parameter Search (R150 to R157): the scan is decided by the first deciding pair, in any order of the trials, and
every trial ends (R152); the invocation reports both results (R158, R159). -/

namespace Sys2Proof.Machine

/-- What the trial of a pair decides of the search (R153, R156). -/
def decision (cfg : Config) (program : List Word) (target : Word) (p : Nat × Nat) : Option SearchResult :=
  decides target p (trial cfg program p.1 p.2)

/-- Of the pairs `ps`, `p` decides `r` and no earlier one decides anything. -/
def FirstDecided (f : Nat × Nat → Option SearchResult) (ps : List (Nat × Nat)) (p : Nat × Nat) (r : SearchResult) : Prop :=
  p ∈ ps ∧ f p = some r ∧ ∀ q ∈ ps, pairLt q p = true → f q = none

theorem FirstDecided.decides {f : Nat × Nat → Option SearchResult} {ps : List (Nat × Nat)} {p : Nat × Nat}
    {r : SearchResult} (h : FirstDecided f ps p r) : f p = some r :=
  h.2.1

/-! What one trial decides. -/

section
variable {cfg : Config} {program : List Word} {target : Word} {p : Nat × Nat}

theorem decision_eq_none_iff :
    decision cfg program target p = none ↔ ∃ w, trial cfg program p.1 p.2 = .output w ∧ w ≠ target := by
  unfold decision
  cases trial cfg program p.1 p.2 <;> simp [decides]

theorem decision_eq_found_iff {n v : Nat} : decision cfg program target p = some (.found n v) ↔
    p = (n, v) ∧ trial cfg program n v = .output target := by
  refine Iff.trans (b := p = (n, v) ∧ trial cfg program p.1 p.2 = .output target) ?_ (and_congr_right ?_)
  · unfold decision
    cases trial cfg program p.1 p.2 <;> simp [decides, Prod.ext_iff, and_comm]
  · rintro rfl
    rfl

theorem decision_eq_faulted_iff {c : FaultCause} :
    decision cfg program target p = some (.faulted c) ↔ trial cfg program p.1 p.2 = .faulted c := by
  unfold decision
  cases trial cfg program p.1 p.2 <;> simp [decides]

/-- Exhaustion is no trial's result (R154). -/
theorem decision_ne_notFound : decision cfg program target p ≠ some .notFound := by
  unfold decision
  cases trial cfg program p.1 p.2 <;> simp [decides]

end

/-! The order of the pairs. -/

theorem pairLt_iff (p q : Nat × Nat) : pairLt p q = true ↔ p.1 < q.1 ∨ (p.1 = q.1 ∧ p.2 < q.2) := by
  simp [pairLt]

theorem pairLt_irrefl (p : Nat × Nat) : ¬ pairLt p p = true := by
  simp [pairLt_iff]

theorem pairLt_trans {p q r : Nat × Nat} (h1 : pairLt p q = true) (h2 : pairLt q r = true) : pairLt p r = true := by
  rw [pairLt_iff] at *
  omega

theorem mem_scanOrder (p : Nat × Nat) : p ∈ scanOrder ↔ p.1 < 100 ∧ p.2 < 100 := by
  simp [scanOrder, Config.paramRange, Prod.ext_iff]

/-- Row-major order is the lexicographic one (R151, R157). -/
theorem scanOrder_pairwise : scanOrder.Pairwise (fun p q => pairLt p q = true) := by
  rw [scanOrder, List.pairwise_flatMap]
  refine ⟨fun n _ => List.pairwise_map.mpr (List.pairwise_lt_range.imp fun h => ?_),
    List.pairwise_lt_range.imp fun h p hp q hq => ?_⟩
  · exact (pairLt_iff ..).mpr (.inr ⟨rfl, h⟩)
  · obtain ⟨_, _, rfl⟩ := List.mem_map.mp hp
    obtain ⟨_, _, rfl⟩ := List.mem_map.mp hq
    exact (pairLt_iff ..).mpr (.inl h)

/-- In ascending order of the pairs, the first decision in the list is that of the least deciding pair. -/
theorem findSome?_eq_some_iff_firstDecided {f : Nat × Nat → Option SearchResult} {ps : List (Nat × Nat)}
    (hsorted : ps.Pairwise (fun p q => pairLt p q = true)) (r : SearchResult) :
    ps.findSome? f = some r ↔ ∃ p, FirstDecided f ps p r := by
  rw [List.findSome?_eq_some_iff]
  constructor
  · rintro ⟨before, p, after, rfl, hp, hbefore⟩
    obtain ⟨_, htail, _⟩ := List.pairwise_append.mp hsorted
    refine ⟨p, by simp, hp, fun q hq hlt => ?_⟩
    rcases List.mem_append.mp hq with hq | hq
    · exact hbefore q hq
    · rcases List.mem_cons.mp hq with rfl | hq
      · exact absurd hlt (pairLt_irrefl q)
      · exact absurd (pairLt_trans hlt (List.rel_of_pairwise_cons htail hq)) (pairLt_irrefl q)
  · rintro ⟨p, hmem, hp, hearlier⟩
    obtain ⟨before, after, rfl⟩ := List.append_of_mem hmem
    obtain ⟨_, _, hlt⟩ := List.pairwise_append.mp hsorted
    exact ⟨before, p, after, rfl, hp, fun q hq =>
      hearlier q (List.mem_append_left _ hq) (hlt q hq p List.mem_cons_self)⟩

theorem firstDecided_scanOrder_iff {f : Nat × Nat → Option SearchResult} {n v : Nat} {r : SearchResult} :
    FirstDecided f scanOrder (n, v) r ↔ n < 100 ∧ v < 100 ∧ f (n, v) = some r ∧
      ∀ n' v' : Nat, v' < 100 → (n' < n ∨ (n' = n ∧ v' < v)) → f (n', v') = none := by
  simp only [FirstDecided, mem_scanOrder, pairLt_iff, and_assoc]
  refine and_congr_right fun hn => and_congr_right fun _ => and_congr_right fun _ => ?_
  constructor
  · exact fun h n' v' hv' hlt => h (n', v') ⟨by omega, hv'⟩ hlt
  · exact fun h q hq hlt => h q.1 q.2 hq.2 hlt

/-! The serial scan. -/

theorem scan_eq_findSome? (cfg : Config) (program : List Word) (target : Word) (ps : List (Nat × Nat)) :
    scan cfg program target ps = (ps.findSome? (decision cfg program target)).getD .notFound := by
  induction ps with
  | nil => rfl
  | cons p ps ih =>
    cases hp : decision cfg program target p with
    | none => rw [scan_cons_undecided _ _ _ _ _ hp, ih, List.findSome?_cons, hp]
    | some r => rw [scan_cons_decided _ _ _ _ _ hp, List.findSome?_cons, hp]; rfl

theorem find_eq_notFound_iff (cfg : Config) (program : List Word) (target : Word) :
    find cfg program target = .notFound ↔ ∀ p ∈ scanOrder, decision cfg program target p = none := by
  rw [find, scan_eq_findSome?, ← List.findSome?_eq_none_iff]
  cases h : scanOrder.findSome? (decision cfg program target) with
  | none => simp
  | some r =>
    obtain ⟨p, _, hp⟩ := List.exists_of_findSome?_eq_some h
    have hr : r ≠ .notFound := fun hr => decision_ne_notFound (hr ▸ hp)
    simp [hr]

theorem find_eq_iff_firstDecided (cfg : Config) (program : List Word) (target : Word) {r : SearchResult}
    (hr : r ≠ .notFound) :
    find cfg program target = r ↔ ∃ p, FirstDecided (decision cfg program target) scanOrder p r := by
  rw [← findSome?_eq_some_iff_firstDecided scanOrder_pairwise, find, scan_eq_findSome?]
  cases scanOrder.findSome? (decision cfg program target) with
  | none => simp [hr.symm]
  | some r' => simp

/-- Settles O40: only the trial of `(n, v)` itself decides `found n v`, and an undecided trial is one that halts with
another Output. -/
theorem findReturnsTheFirstMatch : Obligations.FindReturnsTheFirstMatch := by
  intro cfg program target n v
  rw [find_eq_iff_firstDecided _ _ _ (by simp)]
  have hpair : (∃ p, FirstDecided (decision cfg program target) scanOrder p (.found n v)) ↔
      FirstDecided (decision cfg program target) scanOrder (n, v) (.found n v) := by
    refine ⟨fun ⟨p, hfirst⟩ => ?_, fun hfirst => ⟨_, hfirst⟩⟩
    obtain ⟨rfl, _⟩ := decision_eq_found_iff.mp hfirst.decides
    exact hfirst
  simp only [hpair, firstDecided_scanOrder_iff, decision_eq_found_iff, decision_eq_none_iff, true_and]

/-- Settles O41: exhaustion is that no pair decides, and a fault that the first deciding pair faults. -/
theorem findFailsOnExhaustionOrFirstFault : Obligations.FindFailsOnExhaustionOrFirstFault := by
  refine fun cfg program target => ⟨?_, fun c => ?_⟩
  · simp only [find_eq_notFound_iff, Prod.forall, mem_scanOrder, decision_eq_none_iff, and_imp]
  · rw [find_eq_iff_firstDecided _ _ _ (by simp)]
    simp only [Prod.exists, firstDecided_scanOrder_iff, decision_eq_faulted_iff, decision_eq_none_iff]

/-! Trials in any order (R157). -/

/-- What is kept of the trials of `ps`: nothing when none decides, else the least deciding pair with its decision. -/
def KeptOf (f : Nat × Nat → Option SearchResult) (ps : List (Nat × Nat)) : Option ((Nat × Nat) × SearchResult) → Prop
  | none => ∀ p ∈ ps, f p = none
  | some b => FirstDecided f ps b.1 b.2

section
variable {f : Nat × Nat → Option SearchResult} {done : List (Nat × Nat)} {best : Option ((Nat × Nat) × SearchResult)}
  (hkept : KeptOf f done best) {p : Nat × Nat}
include hkept

theorem keptOf_cons_undecided (hp : f p = none) : KeptOf f (p :: done) best := by
  cases best with
  | none => exact List.forall_mem_cons.mpr ⟨hp, hkept⟩
  | some b =>
    obtain ⟨hmem, hb, hearlier⟩ := hkept
    exact ⟨List.mem_cons_of_mem _ hmem, hb, List.forall_mem_cons.mpr ⟨fun _ => hp, hearlier⟩⟩

theorem keptOf_cons_decided {r : SearchResult} (hp : f p = some r) : KeptOf f (p :: done) (earlier best p r) := by
  have hself : pairLt p p = true → f p = none := fun hlt => absurd hlt (pairLt_irrefl p)
  cases best with
  | none => exact ⟨List.mem_cons_self, hp, List.forall_mem_cons.mpr ⟨hself, fun q hq _ => hkept q hq⟩⟩
  | some b =>
    obtain ⟨hmem, hb, hearlier⟩ := hkept
    by_cases hlt : pairLt p b.1 = true
    · rw [earlier, if_pos hlt]
      exact ⟨List.mem_cons_self, hp,
        List.forall_mem_cons.mpr ⟨hself, fun q hq hqp => hearlier q hq (pairLt_trans hqp hlt)⟩⟩
    · rw [earlier, if_neg hlt]
      exact ⟨List.mem_cons_of_mem _ hmem, hb, List.forall_mem_cons.mpr ⟨fun h => absurd h hlt, hearlier⟩⟩

end

/-- Each further trial is collected, so that in the end the least deciding pair of all is kept. -/
theorem keptOf_collect {cfg : Config} {program : List Word} {target : Word} {done : List (Nat × Nat)}
    {best : Option ((Nat × Nat) × SearchResult)} (ps : List (Nat × Nat))
    (hkept : KeptOf (decision cfg program target) done best) :
    KeptOf (decision cfg program target) (ps.reverse ++ done) (collect cfg program target ps best) := by
  induction ps generalizing done best with
  | nil => exact hkept
  | cons p ps ih =>
    rw [List.reverse_cons, List.append_assoc, List.singleton_append, collect]
    split
    · next r hp => exact ih (keptOf_cons_decided hkept hp)
    · next hp => exact ih (keptOf_cons_undecided hkept hp)

theorem keptOf_perm {f : Nat × Nat → Option SearchResult} {ps qs : List (Nat × Nat)} (hperm : ps.Perm qs)
    {best : Option ((Nat × Nat) × SearchResult)} (hkept : KeptOf f ps best) : KeptOf f qs best := by
  cases best with
  | none => exact fun p hp => hkept p (hperm.mem_iff.mpr hp)
  | some b =>
    obtain ⟨hmem, hb, hearlier⟩ := hkept
    exact ⟨hperm.mem_iff.mp hmem, hb, fun q hq => hearlier q (hperm.mem_iff.mpr hq)⟩

/-- Settles O42: what is kept does not depend on the order of the trials, and it is what decides the serial scan. -/
theorem parallelSearchGivesTheSerialResult : Obligations.ParallelSearchGivesTheSerialResult := by
  intro cfg program target schedule hperm
  have hkept : KeptOf (decision cfg program target) scanOrder (collect cfg program target schedule none) := by
    refine keptOf_perm (ps := schedule.reverse ++ []) ?_ (keptOf_collect schedule (fun p hp => by simp at hp))
    simpa using (List.reverse_perm schedule).trans hperm
  unfold findScheduled
  split
  · next b hb =>
    rw [hb] at hkept
    have hfirst : FirstDecided (decision cfg program target) scanOrder b.1 b.2 := hkept
    have hne : b.2 ≠ .notFound := fun h => decision_ne_notFound (h ▸ hfirst.decides)
    exact ((find_eq_iff_firstDecided _ _ _ hne).mpr ⟨b.1, hfirst⟩).symm
  · next hb =>
    rw [hb] at hkept
    exact ((find_eq_notFound_iff ..).mpr hkept).symm

/-! Every trial ends. -/

theorem inv_of_reaches {s t : State} (hinv : s.Inv) (hreach : Reaches s t) : t.Inv :=
  reaches_induction hreach hinv stepKeepsTheInvariant

/-- A terminal machine has an Output or a recorded cause (R18, R97). -/
theorem resultOf_ne_unfinished {s : State} (hinv : s.Inv) (hterminal : s.run ≠ .running) : resultOf s ≠ .unfinished := by
  unfold resultOf
  cases hrun : s.run with
  | running => exact absurd hrun hterminal
  | halted =>
    obtain ⟨v, _, hout⟩ := haltedMachineHasAnOutput s hinv hrun
    simp [hout]
  | faulted =>
    have hfault : s.fault ≠ none := fun h => hinv.faultRecorded.mp h hrun
    obtain ⟨c, hc⟩ := Option.ne_none_iff_exists'.mp hfault
    simp [out_of_not_halted (s := s) (by simp [hrun]), hc]

/-- Settles O43: an admitted reset meets the invariant, so that the end of its run has a result. -/
theorem everyTrialIsDecided : Obligations.EveryTrialIsDecided := by
  intro cfg program n v
  unfold trial
  split
  · next s hreset =>
    have hinv := everyResetMeetsTheInvariant _ s hreset
    exact resultOf_ne_unfinished (inv_of_reaches hinv (runToEnd_reaches s)) (runToEnd_terminal s)
  · next hreset => exact absurd hreset (resetFrom_not_fault _ _)
  · simp

/-! The invocation. -/

theorem reportSearch_success_iff (w : Word) (result : SearchResult) (output : Word) (n v d : Nat) :
    reportSearch w result = .success output n v d ↔ w = output ∧ result = .found n v ∧ d = 100 * n + v := by
  cases result with
  | found n' v' =>
    simp only [reportSearch, derivedValue, ExitResult.success.injEq, SearchResult.found.injEq]
    constructor
    · rintro ⟨rfl, rfl, rfl, rfl⟩; exact ⟨rfl, ⟨rfl, rfl⟩, rfl⟩
    · rintro ⟨rfl, ⟨rfl, rfl⟩, rfl⟩; exact ⟨rfl, rfl, rfl, rfl⟩
  | notFound => simp [reportSearch]
  | faulted => simp [reportSearch]
  | refused => simp [reportSearch]
  | unfinished => simp [reportSearch]

theorem invokeImage_success_iff (cfg : Config) (program : List Word) (target output : Word) (n v d : Nat) :
    invokeImage cfg program target = .success output n v d ↔
      trial cfg program 12 2 = .output output ∧ find cfg program target = .found n v ∧ d = 100 * n + v := by
  unfold invokeImage Config.canonicalNoun Config.canonicalVerb
  cases trial cfg program 12 2 <;> simp [reportSearch_success_iff]

/-- Settles O45: the load, the canonical trial and the search in turn, each of which ends the invocation when it fails. -/
theorem invocationReportsBothResultsOrNone : Obligations.InvocationReportsBothResultsOrNone := by
  intro cfg text target output n v d
  unfold invoke
  cases parseProgram cfg.xlen text with
  | error e => simp
  | ok program => simp [invokeImage_success_iff]

end Sys2Proof.Machine
end

section
/-! PROOFS. The loader reads back what is written in the text format (R62, D20). -/

namespace Sys2Proof.Machine

/-! Decimal digits. -/

theorem digitsValue_append (acc : Nat) (xs ys : List Char) :
    digitsValue acc (xs ++ ys) = (digitsValue acc xs).bind (fun n => digitsValue n ys) := by
  induction xs generalizing acc with
  | nil => rfl
  | cons c xs ih =>
    rw [List.cons_append, digitsValue, digitsValue]
    cases digitValue c with
    | none => rfl
    | some d => exact ih _

theorem digitsValue_singleton_digitChar (acc : Nat) {d : Nat} (h : d < 10) :
    digitsValue acc [digitChar d] = some (10 * acc + d) := by
  simp [digitsValue, digitValue_digitChar d h]

/-- With enough fuel, the digits of a number are read back as the number: those before the last as its tenth. -/
theorem digitsValue_decimalDigits {k n : Nat} (hfuel : n ≤ k) : digitsValue 0 (decimalDigits k n) = some n := by
  induction k generalizing n with
  | zero =>
    obtain rfl : n = 0 := by omega
    rfl
  | succ k ih =>
    unfold decimalDigits
    split
    · next hlt => rw [digitsValue_singleton_digitChar 0 hlt]; simp
    · rw [digitsValue_append, ih (by omega), Option.bind_some,
        digitsValue_singleton_digitChar _ (Nat.mod_lt n (by decide)), Nat.div_add_mod]

/-- A decimal digit, as the loader reads it. -/
def IsDigit (c : Char) : Prop := ∃ d, digitValue c = some d

theorem IsDigit.ne_of_digitValue_none {c c' : Char} (h : IsDigit c) (hc' : digitValue c' = none) : c ≠ c' := by
  rintro rfl
  obtain ⟨d, hd⟩ := h
  simp [hc'] at hd

theorem isDigit_of_digitsValue {acc n : Nat} {cs : List Char} (h : digitsValue acc cs = some n) : ∀ c ∈ cs, IsDigit c := by
  induction cs generalizing acc with
  | nil => simp
  | cons c cs ih =>
    rw [digitsValue] at h
    cases hd : digitValue c with
    | none => simp [hd] at h
    | some d =>
      rw [hd] at h
      exact List.forall_mem_cons.mpr ⟨⟨d, hd⟩, ih h⟩

theorem decimalDigits_ne_nil (k n : Nat) : decimalDigits k n ≠ [] := by
  cases k with
  | zero => simp [decimalDigits]
  | succ k => unfold decimalDigits; split <;> simp

/-! One word: its text has no comma and no blank, and is read back. -/

theorem parseNatural_of_ne_nil {cs : List Char} (h : cs ≠ []) : parseNatural cs = digitsValue 0 cs := by
  cases cs with
  | nil => exact absurd rfl h
  | cons c cs => rfl

theorem parseNatural_decimalDigits (n : Nat) : parseNatural (decimalDigits n n) = some n := by
  rw [parseNatural_of_ne_nil (decimalDigits_ne_nil n n), digitsValue_decimalDigits le_rfl]

/-- A token that begins with no minus sign is a natural number (D20). -/
theorem parseInteger_of_no_minus {cs : List Char} (h : ∀ c ∈ cs, c ≠ '-') :
    parseInteger cs = (parseNatural cs).map (fun n => (n : Int)) := by
  unfold parseInteger
  split
  · exact absurd rfl (h '-' List.mem_cons_self)
  · rfl

theorem isDigit_of_mem_decimalDigits {n : Nat} : ∀ c ∈ decimalDigits n n, IsDigit c :=
  isDigit_of_digitsValue (digitsValue_decimalDigits le_rfl)

theorem parseInteger_renderWord (w : Word) : parseInteger (renderWord w) = some w := by
  cases w with
  | ofNat n =>
    have hminus : ∀ c ∈ decimalDigits n n, c ≠ '-' :=
      fun c hc => (isDigit_of_mem_decimalDigits c hc).ne_of_digitValue_none (by decide)
    rw [renderWord, parseInteger_of_no_minus hminus, parseNatural_decimalDigits]
    rfl
  | negSucc n =>
    rw [renderWord, parseInteger, parseNatural_decimalDigits]
    rfl

theorem parseToken_renderWord {x : XLen} {w : Word} (h : representable x w = true) :
    parseToken x (renderWord w) = .ok w := by
  simp [parseToken, parseInteger_renderWord, h]

theorem mem_renderWord {w : Word} {c : Char} (h : c ∈ renderWord w) : c = '-' ∨ IsDigit c := by
  cases w with
  | ofNat n => exact .inr (isDigit_of_mem_decimalDigits c h)
  | negSucc n => exact (List.mem_cons.mp h).imp_right (isDigit_of_mem_decimalDigits c)

theorem ne_comma_of_mem_renderWord {w : Word} {c : Char} (h : c ∈ renderWord w) : c ≠ ',' := by
  rcases mem_renderWord h with rfl | hdigit
  · decide
  · exact hdigit.ne_of_digitValue_none (by decide)

theorem isDigit_not_blank {c : Char} (h : IsDigit c) : isBlank c = false := by
  have hne : ∀ b, digitValue b = none → c ≠ b := fun _ => h.ne_of_digitValue_none
  simp [isBlank, hne ' ' (by decide), hne '\t' (by decide), hne '\n' (by decide), hne '\r' (by decide)]

theorem not_blank_of_mem_renderWord {w : Word} {c : Char} (h : c ∈ renderWord w) : isBlank c = false := by
  rcases mem_renderWord h with rfl | hdigit
  · decide
  · exact isDigit_not_blank hdigit

/-! The whole line: words between commas. -/

theorem renderProgram_cons {w : Word} {ws : List Word} (h : ws ≠ []) :
    renderProgram (w :: ws) = renderWord w ++ ',' :: renderProgram ws := by
  cases ws with
  | nil => exact absurd rfl h
  | cons => rfl

theorem splitCommas_of_no_comma {t : List Char} (h : ∀ c ∈ t, c ≠ ',') : splitCommas t = [t] := by
  induction t with
  | nil => rfl
  | cons c t ih =>
    obtain ⟨hc, ht⟩ := List.forall_mem_cons.mp h
    rw [splitCommas, if_neg hc, ih ht]

theorem splitCommas_append_comma {t : List Char} (h : ∀ c ∈ t, c ≠ ',') (cs : List Char) :
    splitCommas (t ++ ',' :: cs) = t :: splitCommas cs := by
  induction t with
  | nil => exact splitCommas_comma cs
  | cons c t ih =>
    obtain ⟨hc, ht⟩ := List.forall_mem_cons.mp h
    rw [List.cons_append, splitCommas, if_neg hc, ih ht]

theorem splitCommas_renderProgram {image : List Word} (h : image ≠ []) :
    splitCommas (renderProgram image) = image.map renderWord := by
  induction image with
  | nil => exact absurd rfl h
  | cons w ws ih =>
    by_cases hws : ws = []
    · subst hws
      exact splitCommas_of_no_comma fun c => ne_comma_of_mem_renderWord
    · rw [renderProgram_cons hws, splitCommas_append_comma (fun c => ne_comma_of_mem_renderWord), ih hws, List.map_cons]

theorem parseTokens_renderWord {x : XLen} {image : List Word} (h : ∀ w ∈ image, representable x w = true) :
    parseTokens x (image.map renderWord) = .ok image := by
  induction image with
  | nil => rfl
  | cons w ws ih =>
    obtain ⟨hw, hws⟩ := List.forall_mem_cons.mp h
    rw [List.map_cons, parseTokens, parseToken_renderWord hw, ih hws]
    rfl

theorem not_blank_of_mem_renderProgram {image : List Word} : ∀ c ∈ renderProgram image, isBlank c = false := by
  induction image with
  | nil => simp [renderProgram]
  | cons w ws ih =>
    by_cases hws : ws = []
    · subst hws
      exact fun c => not_blank_of_mem_renderWord
    · rw [renderProgram_cons hws, List.forall_mem_append, List.forall_mem_cons]
      exact ⟨fun c => not_blank_of_mem_renderWord, by decide, ih⟩

/-! Blanks around the line. -/

theorem dropWhile_blanks {blanks body : List Char} (hblanks : ∀ c ∈ blanks, isBlank c = true)
    (hbody : ∀ c ∈ body, isBlank c = false) (hne : body ≠ []) (rest : List Char) :
    (blanks ++ (body ++ rest)).dropWhile isBlank = body ++ rest := by
  rw [List.dropWhile_append_of_pos hblanks]
  cases body with
  | nil => exact absurd rfl hne
  | cons c body => exact List.dropWhile_cons_of_neg (by simp [hbody c List.mem_cons_self])

/-- The blanks at the two ends are trimmed, the second end as the first end of the reversed text. -/
theorem trimBlanks_of_surrounded {before body after : List Char} (hbefore : ∀ c ∈ before, isBlank c = true)
    (hafter : ∀ c ∈ after, isBlank c = true) (hbody : ∀ c ∈ body, isBlank c = false) (hne : body ≠ []) :
    trimBlanks (before ++ body ++ after) = body := by
  have hback : (after.reverse ++ (body.reverse ++ [])).dropWhile isBlank = body.reverse ++ [] :=
    dropWhile_blanks (by simpa using hafter) (by simpa using hbody) (by simpa using hne) []
  rw [List.append_nil] at hback
  rw [trimBlanks, List.append_assoc, dropWhile_blanks hbefore hbody hne, List.reverse_append, hback, List.reverse_reverse]

theorem renderWord_ne_nil (w : Word) : renderWord w ≠ [] := by
  cases w with
  | ofNat n => exact decimalDigits_ne_nil n n
  | negSucc n => exact List.cons_ne_nil _ _

theorem renderProgram_ne_nil {image : List Word} (h : image ≠ []) : renderProgram image ≠ [] := by
  cases image with
  | nil => exact absurd rfl h
  | cons w ws =>
    by_cases hws : ws = []
    · subst hws
      exact renderWord_ne_nil w
    · rw [renderProgram_cons hws]
      exact List.append_ne_nil_of_left_ne_nil (renderWord_ne_nil w) _

/-- Settles O44: the blanks are trimmed, the tokens are the words written out, and each is read back. -/
theorem loaderReadsBackEveryImage : Obligations.LoaderReadsBackEveryImage := by
  intro x image before after hne hwf hbefore hafter
  rw [parseProgram, trimBlanks_of_surrounded hbefore hafter not_blank_of_mem_renderProgram (renderProgram_ne_nil hne),
    splitCommas_renderProgram hne, parseTokens_renderWord ((wf_iff x image).mp hwf)]

end Sys2Proof.Machine
end
